-- ==== Sys2Proof/Word.lean ====
section
/-! DEFINITION. The word types of the LS-8: every quantity is unsigned (spec/00_scope.md R5). -/

namespace Sys2Proof

/-- A register, a memory cell, FL, an operand byte or an opcode: 8 bits, unsigned (R5, R11, R30). -/
abbrev Byte := BitVec 8

/-- The program counter: `PC_BITS` = 9 bits (spec/10_state.md R16, decision D1; log 1). -/
abbrev PcWord := BitVec 9

/-- A valid register index, 0..7 (spec/10_state.md R11, R14). -/
abbrev RegIdx := Fin 8

end Sys2Proof
end

