-- ==== Sys2Proof/Config.lean ====
section
/-! DEFINITION. The parameters of the hardware and their values (spec/00_scope.md R4, spec/92_eei_decisions.md).
The machine is deterministic (spec/40_engine_cycle.md R74), so there is no free value here. -/

namespace Sys2Proof.Config

/-- `ADDR_MAX`: the highest address, 255 (R4, R30); the memory has `addrMax + 1` = 256 cells. -/
def addrMax : Nat := 255

/-- `SP_INDEX`: register 7 is the stack pointer (R4, R12). -/
def spIndex : RegIdx := 7

/-- `SP_RESET`: reset value of R7 (R4, R25). -/
def spReset : Byte := 0xF4

/-- `PC_RESET`: reset value of the program counter, the entry point (R4, R25, R162). -/
def pcReset : PcWord := 0

/-- `RESET_GPR`: reset value of R0 to R6 (R26). DESIGN CHOICE of the spec, decision D2; unsafe; log 2. -/
def resetGpr : Byte := 0x00

/-- `RESET_FL`: reset value of FL (R26). DESIGN CHOICE of the spec, decision D3; unsafe; log 3. -/
def resetFl : Byte := 0x00

/-- `RESET_MEM_FILL`: what a cell that nothing has written holds (R26). DESIGN CHOICE of the spec, decision D4;
unsafe; log 4. -/
def resetMemFill : Byte := 0x00

/-- `MAX_PROGRAM_LEN`: the longest program image, in bytes (R4, R163). DESIGN CHOICE of the spec, decision D4;
safe; log 5. -/
def maxProgramLen : Nat := 256

end Sys2Proof.Config
end

