-- ==== Sys2Proof/Machine/State.lean ====
section
/-! DEFINITION. The complete architectural state of the LS-8 (spec/10_state.md R10), the reasons a step of the model can
stop, and the state after reset (R25 to R27). -/

namespace Sys2Proof.Machine

/-- The five execution-time fault kinds (spec/60_exceptions.md R130). -/
inductive FaultKind where
  /-- Address outside memory (R131). -/
  | outOfBounds
  /-- Index outside the register file (R132). -/
  | invalidRegister
  /-- Opcode absent from the table (R133). -/
  | illegalInstruction
  /-- DIV with a zero divisor (R134). -/
  | divideByZero
  /-- ALU operation code not recognized; no instruction raises it (R135). -/
  | unsupportedOperation
  deriving DecidableEq, Repr

/-- The error value Faulted carries (spec/10_state.md R22): `pc` is the address of the faulting instruction's opcode
byte, `op` the opcode byte, absent when the opcode fetch itself faulted (decision D7; log 7). -/
structure FaultRecord where
  kind : FaultKind
  pc : PcWord
  op : Option Byte
  deriving DecidableEq, Repr

/-- The engine's state machine (spec/10_state.md R19). -/
inductive Status where
  | running
  | halted
  | faulted (record : FaultRecord)
  deriving DecidableEq, Repr

/-- The contents of memory: the cells that differ from `Config.resetMemFill`, as (address, byte) pairs. The canonical
form is `Memory.wf`; what a cell reads as is `Memory.read`. -/
abbrev Memory := List Host.Cell

/-- The six items of state (spec/10_state.md R10). -/
structure State where
  /-- M, 256 cells of 8 bits (spec/20_memory.md R30). -/
  mem : Memory
  /-- x[0..7]; R7 is the stack pointer (R11, R12). -/
  regs : Vector Byte 8
  /-- FL: bit 0 E, bit 1 G, bit 2 L, bits 7:3 zero (R17). -/
  fl : Byte
  /-- The program counter (R15, R16). -/
  pc : PcWord
  /-- Running, Halted or Faulted (R19). -/
  status : Status
  /-- OUT, the values emitted so far, oldest first (R28). -/
  out : List Byte
  deriving DecidableEq, Repr

/-- Why `step` of this model stops. A fault of the HARDWARE is not one of these: it is a next state whose status is
Faulted (spec/60_exceptions.md R137). -/
inductive Fault where
  /-- Raised by `step` in a state whose status is Halted: no step is enabled (spec/40_engine_cycle.md R66, decision
  D24). Safe: the hardware does not go on either. Log 15. -/
  | engineHalted
  /-- Raised by `step` in a state whose status is Faulted: no step is enabled (R66, decision D24). Safe: the hardware
  does not go on either. Log 15. -/
  | engineFaulted
  deriving DecidableEq, Repr

/-- Why the model has no meaning for an instruction. -/
inductive Refusal where
  /-- Raised by `exec` for an instruction that is not modelled yet; safe. No arm of `exec` raises it. -/
  | notModelled (mnemonic : String)
  deriving DecidableEq, Repr

/-- The answer of a step or of an instruction's meaning. -/
abbrev Result := Host.Outcome State Fault Refusal

/-- The machine right after reset with an empty program image (spec/10_state.md R27). -/
def State.reset : State where
  mem := []
  regs := #v[Config.resetGpr, Config.resetGpr, Config.resetGpr, Config.resetGpr, Config.resetGpr, Config.resetGpr,
    Config.resetGpr, Config.spReset]
  fl := Config.resetFl
  pc := Config.pcReset
  status := .running
  out := []

end Sys2Proof.Machine
end

