-- ==== Sys2Proof/Machine/Flags.lean ====
section
/-! DEFINITION. FL (spec/10_state.md R17, R18): its bits, and the one computation that writes it. -/

namespace Sys2Proof.Machine

/-- E, bit 0 of FL: the last CMP found a = b. Read by JEQ and JNE. -/
def equalFlag (fl : Byte) : Bool := fl.getLsbD 0

/-- G, bit 1 of FL: the last CMP found a > b. Read by no instruction. -/
def greaterFlag (fl : Byte) : Bool := fl.getLsbD 1

/-- L, bit 2 of FL: the last CMP found a < b. Read by no instruction. -/
def lessFlag (fl : Byte) : Bool := fl.getLsbD 2

/-- The flags byte CMP writes: exactly one of bits 0, 1, 2 is set and bits 7:3 are 0; the comparison is unsigned
(spec/42_alu.md R94, spec/90_conflicts.md C1). -/
def compareFlags (a b : Byte) : Byte :=
  if a.toNat = b.toNat then 0x01
  else if a.toNat > b.toNat then 0x02
  else 0x04

end Sys2Proof.Machine
end

