-- ==== Sys2Proof/Syntax.lean ====
section
/-! DEFINITION. The 14 instructions of the LS-8, one constructor per row of spec/opcode_table.json
(spec/30_encoding.md R53). -/

namespace Sys2Proof

/-- An instruction with its operand bytes as fetched. A register operand is the WHOLE operand byte, 0..255: it is not
masked to three bits, and a value above 7 is judged when the instruction accesses the register file (R56, R14). -/
inductive Instr where
  /-- HLT: stop execution (R80). -/
  | hlt
  /-- LDI reg, value: reg ← value (R81). -/
  | ldi (r imm : Byte)
  /-- PRN reg: emit reg's value (R82). -/
  | prn (r : Byte)
  /-- ADD reg_a, reg_b (R91). -/
  | add (ra rb : Byte)
  /-- MUL reg_a, reg_b (R92). -/
  | mul (ra rb : Byte)
  /-- DIV reg_a, reg_b (R93). -/
  | div (ra rb : Byte)
  /-- CMP reg_a, reg_b (R94). -/
  | cmp (ra rb : Byte)
  /-- PUSH reg (R101). -/
  | push (r : Byte)
  /-- POP reg (R102). -/
  | pop (r : Byte)
  /-- CALL reg (R111). -/
  | call (r : Byte)
  /-- RET (R112). -/
  | ret
  /-- JMP reg (R113). -/
  | jmp (r : Byte)
  /-- JEQ reg (R114). -/
  | jeq (r : Byte)
  /-- JNE reg (R115). -/
  | jne (r : Byte)
  deriving DecidableEq, Repr

end Sys2Proof
end

