-- ==== Sys2Proof/Decode.lean ====
section
/-! DEFINITION. The opcode table, the decoder and the encoder (spec/30_encoding.md R50 to R63). The decoder is total on
any bytes and rejects by name; the machine's fetch uses this same decoder. -/

namespace Sys2Proof

/-! ## The opcode table -/

/-- What the table holds for an opcode: the instruction, built from its 0, 1 or 2 operand bytes (R51, R52). -/
inductive OpcodeEntry where
  | zero (i : Instr)
  | one (build : Byte → Instr)
  | two (build : Byte → Byte → Instr)

/-- The declared operand count of a table entry (R55). -/
def OpcodeEntry.operands : OpcodeEntry → Nat
  | .zero _ => 0
  | .one _ => 1
  | .two _ => 2

/-- The complete opcode table, in the order of R53. -/
def opcodeTable : List (Byte × OpcodeEntry) :=
  [ (0x01, .zero .hlt),
    (0x82, .two .ldi),
    (0x47, .one .prn),
    (0xA0, .two .add),
    (0xA2, .two .mul),
    (0xA3, .two .div),
    (0xA7, .two .cmp),
    (0x45, .one .push),
    (0x46, .one .pop),
    (0x50, .one .call),
    (0x11, .zero .ret),
    (0x54, .one .jmp),
    (0x55, .one .jeq),
    (0x56, .one .jne) ]

/-- `Lookup`: an exact match of all eight bits of the opcode byte against the table; `none` is an illegal
instruction (R54). -/
def lookup (op : Byte) : Option OpcodeEntry := List.lookup op opcodeTable

/-! ## The decoder -/

/-- Why bytes are not an instruction. -/
inductive DecodeError where
  /-- There is no opcode byte. -/
  | noOpcode
  /-- The opcode byte is not in the table (R54). -/
  | illegalOpcode (op : Byte)
  /-- The opcode is in the table and an operand byte it needs is not there. -/
  | missingOperand (op : Byte)
  deriving DecidableEq, Repr

/-- Reads one instruction from the front of a byte sequence and answers it with the bytes that follow. The opcode is
looked up before any operand byte is read (R63, spec/40_engine_cycle.md R68). -/
def decode : List Byte → Except DecodeError (Instr × List Byte)
  | [] => .error .noOpcode
  | op :: rest =>
    match lookup op, rest with
    | none, _ => .error (.illegalOpcode op)
    | some (.zero i), rest => .ok (i, rest)
    | some (.one build), b₁ :: rest => .ok (build b₁, rest)
    | some (.two build), b₁ :: b₂ :: rest => .ok (build b₁ b₂, rest)
    | some _, _ => .error (.missingOperand op)

/-! ## The encoder and the per-instruction columns of the table -/

/-- The opcode byte of an instruction (R53). -/
def Instr.opcode : Instr → Byte
  | .hlt => 0x01
  | .ldi _ _ => 0x82
  | .prn _ => 0x47
  | .add _ _ => 0xA0
  | .mul _ _ => 0xA2
  | .div _ _ => 0xA3
  | .cmp _ _ => 0xA7
  | .push _ => 0x45
  | .pop _ => 0x46
  | .call _ => 0x50
  | .ret => 0x11
  | .jmp _ => 0x54
  | .jeq _ => 0x55
  | .jne _ => 0x56

/-- The operand bytes in the order they follow the opcode (R52). -/
def Instr.operandBytes : Instr → List Byte
  | .hlt => []
  | .ldi r imm => [r, imm]
  | .prn r => [r]
  | .add ra rb => [ra, rb]
  | .mul ra rb => [ra, rb]
  | .div ra rb => [ra, rb]
  | .cmp ra rb => [ra, rb]
  | .push r => [r]
  | .pop r => [r]
  | .call r => [r]
  | .ret => []
  | .jmp r => [r]
  | .jeq r => [r]
  | .jne r => [r]

/-- The number of operand bytes the table declares, by which the engine advances the program counter
(R53 column "operands"; spec/40_engine_cycle.md R71, R75). -/
def Instr.operandCount : Instr → Nat
  | .hlt => 0
  | .ldi _ _ => 2
  | .prn _ => 1
  | .add _ _ => 2
  | .mul _ _ => 2
  | .div _ _ => 2
  | .cmp _ _ => 2
  | .push _ => 1
  | .pop _ => 1
  | .call _ => 1
  | .ret => 0
  | .jmp _ => 1
  | .jeq _ => 1
  | .jne _ => 1

/-- The bytes of an instruction, lowest address first (R50, R52). -/
def encode (i : Instr) : List Byte := i.opcode :: i.operandBytes

/-! ## The host's numbering of an instruction's bits -/

/-- The three bytes, lowest address first, of an instruction given as a number whose byte k is its bits 8k+7..8k, every
bit above `nbits` being 0. Three bytes is the longest instruction (R50). -/
def tableWordBytes (nbits w : Nat) : List Byte :=
  let v := w % 2 ^ nbits
  [BitVec.ofNat 8 v, BitVec.ofNat 8 (v / 2 ^ 8), BitVec.ofNat 8 (v / 2 ^ 16)]

/-- The instruction the decoder reads from a table word; `none` where it refuses. -/
def decodeTableWord (nbits w : Nat) : Option Instr :=
  match decode (tableWordBytes nbits w) with
  | .ok (i, _) => some i
  | .error _ => none

end Sys2Proof
end

