-- ==== Sys2Proof/Machine/Ops.lean ====
section
/-! DEFINITION. The named operations over memory, registers, the program counter, the stack and the output; fetching an
instruction; taking a fault; program ingestion. -/

namespace Sys2Proof.Machine

/-- `trunc8(v)` = v mod 256 (spec/00_scope.md section 5). -/
def trunc8 (v : Nat) : Byte := BitVec.ofNat 8 v

/-! ## Memory (spec/20_memory.md) -/

/-- The canonical form: addresses strictly rising and inside memory, no cell listed that holds the fill value. -/
abbrev Memory.wf (m : Memory) : Prop :=
  m.Pairwise (fun c d => c.1 < d.1) ∧ ∀ c ∈ m, c.1 ≤ Config.addrMax ∧ c.2 ≠ Config.resetMemFill

/-- `M[a]`. A cell that is not listed holds `Config.resetMemFill` (spec/10_state.md R26; log 4). -/
def Memory.read : Memory → Nat → Byte
  | [], _ => Config.resetMemFill
  | (b, v) :: m, a => if a = b then v else Memory.read m a

/-- Lists one more cell, before the first cell of a higher address. -/
def Memory.insertCell : Memory → Nat → Byte → Memory
  | [], a, v => [(a, v)]
  | (b, w) :: m, a, v => if a < b then (a, v) :: (b, w) :: m else (b, w) :: Memory.insertCell m a v

/-- `M[a] <- v`, keeping the canonical form: writing the fill value removes the entry. -/
def Memory.write (m : Memory) (a : Nat) (v : Byte) : Memory :=
  if v = Config.resetMemFill then m.filter (fun c => c.1 ≠ a)
  else Memory.insertCell (m.filter (fun c => c.1 ≠ a)) a v

/-- `MemRead(a, 1)`: `none` is OutOfBounds (R31). Addresses are natural numbers: the one place where the spec forms a
negative address, a push at SP = 0, is checked in `pushAddr`. -/
def memRead (m : Memory) (a : Nat) : Option Byte :=
  if a ≤ Config.addrMax then some (m.read a) else none

/-- `MemWrite(a, 1, v)`: stores `v mod 256`; `none` is OutOfBounds, with nothing written (R32). -/
def memWrite (m : Memory) (a v : Nat) : Option Memory :=
  if a ≤ Config.addrMax then some (m.write a (trunc8 v)) else none

/-- Stores consecutive bytes from address `a` upward. -/
def Memory.writeFrom : Memory → Nat → List Byte → Memory
  | m, _, [] => m
  | m, a, b :: bs => Memory.writeFrom (m.write a b) (a + 1) bs

/-- Replaces the contents of memory. -/
def State.setMem (s : State) (m : Memory) : State := { s with mem := m }

/-! ## Registers (spec/10_state.md R11 to R14) -/

/-- `x[i]`. -/
def State.reg (s : State) (i : RegIdx) : Byte := s.regs[i]

/-- `x[i] <- v`: stores `v mod 256` (R13). -/
def State.setReg (s : State) (i : RegIdx) (v : Nat) : State :=
  { s with regs := s.regs.set i.val (trunc8 v) i.isLt }

/-- SP, the value of register 7 (R12). -/
def State.sp (s : State) : Byte := s.reg Config.spIndex

/-- SP <- v. -/
def State.setSp (s : State) (v : Nat) : State := s.setReg Config.spIndex v

/-! ## FL, status, program counter, output -/

/-- Writes all eight bits of FL; only CMP does (R17). -/
def State.setFl (s : State) (fl : Byte) : State := { s with fl := fl }

/-- `status <- x` (R19). -/
def State.setStatus (s : State) (x : Status) : State := { s with status := x }

/-- The Running flag: true exactly when status is Running (spec/10_state.md R21, decision D5; log 23). -/
def State.runningFlag (s : State) : Bool := s.status = .running

/-- `pc <- t`: the 8-bit target zero-extended (spec/44_control_transfer.md R110). The engine then adds nothing
(spec/40_engine_cycle.md R71). -/
def State.jumpTo (s : State) (t : Byte) : State := { s with pc := t.setWidth 9 }

/-- Part 5 of the step, for an instruction that did not set the PC: `pc <- pc + 1 + operand_count`
(spec/40_engine_cycle.md R71). No fetch succeeds with pc above 255, so the 9-bit sum never wraps in a step (log 1). -/
def State.advance (s : State) (i : Instr) : State := { s with pc := s.pc + BitVec.ofNat 9 (1 + i.operandCount) }

/-- `Emit(v)`: appends v to OUT (spec/10_state.md R28). -/
def State.emit (s : State) (v : Byte) : State := { s with out := s.out ++ [v] }

/-- The text the output sink makes of an emitted value: plain decimal, then one newline
(spec/41_data_io_halt.md R83, decision D13; log 13). -/
def sinkText (v : Byte) : List Char := Nat.toDigits 10 v.toNat ++ ['\n']

/-- The whole text printed so far, in execution order (R83). -/
def State.printed (s : State) : List Char := s.out.flatMap sinkText

/-! ## Taking a fault (spec/60_exceptions.md R137 to R139) -/

/-- `raise K`, given the opcode byte if one was fetched: status <- Faulted(K, pc, op), and nothing else changes: the
program counter still addresses the faulting instruction (R137, R138, R139). There is no return from a fault
(R142), so no operation undoes this one. -/
def takeFault (kind : FaultKind) (op : Option Byte) (s : State) : State :=
  s.setStatus (.faulted { kind := kind, pc := s.pc, op := op })

/-- `raise K` in the handler of instruction `i`: the record carries the opcode byte of `i` (log 7). -/
def raise (i : Instr) (kind : FaultKind) (s : State) : Result :=
  .next (takeFault kind (some i.opcode) s)

/-- The numbers the spec assigns to the fault kinds (R130, decision D20: a convenience; log 18). -/
def FaultKind.code : FaultKind → Nat
  | .outOfBounds => 1
  | .invalidRegister => 2
  | .illegalInstruction => 3
  | .divideByZero => 4
  | .unsupportedOperation => 5

/-! ## The stack (spec/43_stack.md R100, R103) -/

/-- The address a push writes, SP - 1; `none` when SP = 0, where it would be below address 0
(R103, decision D8; log 8). -/
def pushAddr (s : State) : Option Nat :=
  if s.sp = 0 then none else some (s.sp.toNat - 1)

/-- The address a pop reads, SP; `none` when SP = 0xFF, where the stack pointer would leave memory
(R103, decision D8; log 8). -/
def popAddr (s : State) : Option Nat :=
  if s.sp = 0xFF then none else some s.sp.toNat

/-- A push: SP <- SP - 1, then M[SP] <- v mod 256; `none` is OutOfBounds, with nothing changed (R100, R103). -/
def push (v : Nat) (s : State) : Option State :=
  match pushAddr s with
  | none => none
  | some a =>
    match memWrite s.mem a v with
    | none => none
    | some m => some ((s.setSp a).setMem m)

/-- A pop: reads M[SP], then SP <- SP + 1; `none` is OutOfBounds, with nothing changed (R100, R103). -/
def pop (s : State) : Option (Byte × State) :=
  match popAddr s with
  | none => none
  | some a =>
    match memRead s.mem a with
    | none => none
    | some v => some (v, s.setSp (a + 1))

/-! ## Fetching an instruction (spec/40_engine_cycle.md R67 to R69) -/

/-- The bytes at pc, pc + 1 and pc + 2, as far as these addresses exist. Reading has no side effect (R31). -/
def fetchWindow (s : State) : List Byte :=
  [s.pc.toNat, s.pc.toNat + 1, s.pc.toNat + 2].filterMap (memRead s.mem)

/-- Parts 1 to 3 of the step: the instruction at pc, or the fault its fetch raises and the opcode byte if there is
one. The checks come in the order opcode fetch, decode, operand fetch (R73), because `decode` looks the opcode up
before it asks for operand bytes. -/
def fetch (s : State) : Except (FaultKind × Option Byte) Instr :=
  match decode (fetchWindow s) with
  | .ok (i, _) => .ok i
  | .error .noOpcode => .error (.outOfBounds, none)
  | .error (.illegalOpcode op) => .error (.illegalInstruction, some op)
  | .error (.missingOperand op) => .error (.outOfBounds, some op)

/-! ## Program ingestion (spec/70_reset_and_hazards.md R163) -/

/-- The one cause of LoadError the core's side of ingestion knows (spec/60_exceptions.md R136, decision D4; log 5). -/
inductive LoadError where
  | imageTooLong
  deriving DecidableEq, Repr

/-- The machine ready for its first step: reset, with byte i of the image at address i; an image of more than 256 bytes
is a LoadError and the machine never runs (R161, R163). -/
def loadProgram (image : List Byte) : Except LoadError State :=
  if image.length ≤ Config.maxProgramLen then
    .ok (State.reset.setMem (State.reset.mem.writeFrom 0 image))
  else .error .imageTooLong

end Sys2Proof.Machine
end

