-- ==== Sys2Proof/Machine/Operands.lean ====
section
/-! DEFINITION. The operand forms: the register operand, alone and in pairs (spec/30_encoding.md R52, R56). The other
form, LDI's immediate, is the whole operand byte used as is (R56) and needs no operation. -/

namespace Sys2Proof.Machine

/-- `CheckReg(r)`: the register a register operand byte names; `none` is InvalidRegister. The byte is not masked
(spec/10_state.md R14). -/
def checkReg (r : Byte) : Option RegIdx :=
  if h : r.toNat < 8 then some ⟨r.toNat, h⟩ else none

/-- Goes on with the register operand `r` of instruction `i`, or raises InvalidRegister (R14, R132). -/
def withReg (i : Instr) (r : Byte) (s : State) (k : RegIdx → Result) : Result :=
  match checkReg r with
  | some d => k d
  | none => raise i .invalidRegister s

/-- Goes on with the two register operands of instruction `i`, or raises InvalidRegister if either is invalid
(spec/42_alu.md R91 to R94: both are checked before either register is read). -/
def withRegs (i : Instr) (ra rb : Byte) (s : State) (k : RegIdx → RegIdx → Result) : Result :=
  withReg i ra s (fun a => withReg i rb s (fun b => k a b))

end Sys2Proof.Machine
end

