-- ==== Sys2Proof/Machine/Alu.lean ====
section
/-! DEFINITION. The ALU and its four instructions ADD, MUL, DIV and CMP (spec/42_alu.md). -/

namespace Sys2Proof.Machine

/-- An ALU operation code. The dispatcher issues only the four named ones (R90); `other` stands for any other code, for
which the ALU fails (R95, decision D21; log 17). -/
inductive AluOp where
  | add
  | mul
  | div
  | cmp
  | other (code : Nat)
  deriving DecidableEq, Repr

/-- What the ALU answers: a result for the first operand's register, a flags byte for FL, or a fault (R90). -/
inductive AluAnswer where
  | result (v : Nat)
  | flags (fl : Byte)
  | fails (kind : FaultKind)
  deriving DecidableEq, Repr

/-- `apply(op, a_value, b_value)`: exact unsigned arithmetic, then reduced modulo 256 (R90, R96, R97). -/
def aluApply (op : AluOp) (a b : Byte) : AluAnswer :=
  match op with
  | .add => .result ((a.toNat + b.toNat) % 256)
  | .mul => .result ((a.toNat * b.toNat) % 256)
  | .div => if b.toNat = 0 then .fails .divideByZero else .result (a.toNat / b.toNat)
  | .cmp => .flags (compareFlags a b)
  | .other _ => .fails .unsupportedOperation

/-- The shape the four ALU instructions share: both operands are checked, both registers are read, the ALU is applied,
and its answer is written to the first operand's register or to FL (R91 to R94). -/
def execAlu (op : AluOp) (i : Instr) (ra rb : Byte) (s : State) : Result :=
  withRegs i ra rb s fun a b =>
    match aluApply op (s.reg a) (s.reg b) with
    | .result v => .next ((s.setReg a v).advance i)
    | .flags fl => .next ((s.setFl fl).advance i)
    | .fails kind => raise i kind s

/-- ADD ra, rb: x[ra] <- (a + b) mod 256 (R91). -/
def execAdd (ra rb : Byte) (s : State) : Result := execAlu .add (.add ra rb) ra rb s

/-- MUL ra, rb: x[ra] <- (a * b) mod 256 (R92). -/
def execMul (ra rb : Byte) (s : State) : Result := execAlu .mul (.mul ra rb) ra rb s

/-- DIV ra, rb: DivideByZero if b = 0, else x[ra] <- a // b (R93). -/
def execDiv (ra rb : Byte) (s : State) : Result := execAlu .div (.div ra rb) ra rb s

/-- CMP ra, rb: FL <- 0x01, 0x02 or 0x04 (R94). -/
def execCmp (ra rb : Byte) (s : State) : Result := execAlu .cmp (.cmp ra rb) ra rb s

end Sys2Proof.Machine
end

