-- ==== Sys2Proof/Machine/Control.lean ====
section
/-! DEFINITION. CALL, RET, JMP, JEQ and JNE (spec/44_control_transfer.md). -/

namespace Sys2Proof.Machine

/-- CALL r: the target is read before SP moves (decision D9; log 9); the byte pushed is (pc + 2) mod 256, so a CALL at
0xFE pushes 0x00 (R111; spec/90_conflicts.md C7; log 12). -/
def execCall (r : Byte) (s : State) : Result :=
  withReg (.call r) r s fun d =>
    match push (s.pc.toNat + 2) s with
    | some t => .next (t.jumpTo (s.reg d))
    | none => raise (.call r) .outOfBounds s

/-- RET: pops the target (R112). -/
def execRet (s : State) : Result :=
  match pop s with
  | some (v, t) => .next (t.jumpTo v)
  | none => raise .ret .outOfBounds s

/-- JMP r: pc <- x[r] (R113). -/
def execJmp (r : Byte) (s : State) : Result :=
  withReg (.jmp r) r s fun d => .next (s.jumpTo (s.reg d))

/-- A conditional branch: the register operand is checked only when the branch is taken
(R114, R115, decision D10; log 10). -/
def branchIf (taken : Bool) (i : Instr) (r : Byte) (s : State) : Result :=
  match taken with
  | true => withReg i r s fun d => .next (s.jumpTo (s.reg d))
  | false => .next (s.advance i)

/-- JEQ r: taken when E is set (R114). -/
def execJeq (r : Byte) (s : State) : Result := branchIf (equalFlag s.fl) (.jeq r) r s

/-- JNE r: taken when E is clear (R115). -/
def execJne (r : Byte) (s : State) : Result := branchIf (!equalFlag s.fl) (.jne r) r s

end Sys2Proof.Machine
end

