-- ==== Sys2Proof/Machine/DataIoHalt.lean ====
section
/-! DEFINITION. HLT, LDI and PRN (spec/41_data_io_halt.md). -/

namespace Sys2Proof.Machine

/-- HLT: status <- Halted; the engine then advances the PC by 1 (R80; spec/90_conflicts.md C9; log 16). -/
def execHlt (s : State) : Result :=
  .next ((s.setStatus .halted).advance .hlt)

/-- LDI r, imm: CheckReg(r); x[r] <- imm (R81). -/
def execLdi (r imm : Byte) (s : State) : Result :=
  withReg (.ldi r imm) r s fun d => .next ((s.setReg d imm.toNat).advance (.ldi r imm))

/-- PRN r: CheckReg(r); Emit(x[r]) (R82). -/
def execPrn (r : Byte) (s : State) : Result :=
  withReg (.prn r) r s fun d => .next ((s.emit (s.reg d)).advance (.prn r))

end Sys2Proof.Machine
end

