-- ==== Sys2Proof/Machine/Stack.lean ====
section
/-! DEFINITION. PUSH and POP (spec/43_stack.md). -/

namespace Sys2Proof.Machine

/-- PUSH r: the operand is read before SP moves, so PUSH R7 stores the old SP (R101, R104, decision D9; log 9). -/
def execPush (r : Byte) (s : State) : Result :=
  withReg (.push r) r s fun d =>
    match push (s.reg d).toNat s with
    | some t => .next (t.advance (.push r))
    | none => raise (.push r) .outOfBounds s

/-- POP r: the destination is written after SP, so POP R7 leaves the popped byte in R7
(R102, R104, decision D9; log 9). -/
def execPop (r : Byte) (s : State) : Result :=
  withReg (.pop r) r s fun d =>
    match pop s with
    | some (v, t) => .next ((t.setReg d v.toNat).advance (.pop r))
    | none => raise (.pop r) .outOfBounds s

end Sys2Proof.Machine
end

