-- ==== Sys2Proof/Machine/Step.lean ====
section
/-! DEFINITION. The step (spec/40_engine_cycle.md R72) and the host's way to place an instruction. -/

namespace Sys2Proof.Machine

/-- One step. It is enabled only while Running (R66): Halted and Faulted stop by name (log 15). While Running the step
always answers a next state: the instruction's, or the one in which a fault has been taken. -/
def step (s : State) : Host.Outcome State Fault Refusal :=
  match s.status with
  | .halted => .fault .engineHalted
  | .faulted _ => .fault .engineFaulted
  | .running =>
    match fetch s with
    | .ok i => exec i s
    | .error (kind, op) => .next (takeFault kind op s)

/-- `s` with the bytes of a table word stored at pc, pc + 1 and pc + 2, as far as these addresses exist: where `step`
fetches its next instruction (log 5). Nothing but memory changes. -/
def State.withFetchWord (s : State) (nbits w : Nat) : State :=
  s.setMem (s.mem.writeFrom s.pc.toNat ((tableWordBytes nbits w).take (Config.addrMax + 1 - s.pc.toNat)))

end Sys2Proof.Machine
end

