-- ==== Sys2Proof/WellFormed.lean ====
section
/-! DEFINITION. Which instructions are well formed: those whose register operands name a register. Every immediate byte
is well formed. An instruction that is NOT well formed still has an encoding, is still decoded and still executes:
it raises InvalidRegister where it accesses the register file (spec/10_state.md R14; log 22). -/

namespace Sys2Proof

/-- The register operand bytes of an instruction, in operand order (spec/30_encoding.md R52). -/
def Instr.regOperands : Instr → List Byte
  | .hlt => []
  | .ldi r _ => [r]
  | .prn r => [r]
  | .add ra rb => [ra, rb]
  | .mul ra rb => [ra, rb]
  | .div ra rb => [ra, rb]
  | .cmp ra rb => [ra, rb]
  | .push r => [r]
  | .pop r => [r]
  | .call r => [r]
  | .ret => []
  | .jmp r => [r]
  | .jeq r => [r]
  | .jne r => [r]

/-- Every register operand is a valid index, 0..7 (spec/10_state.md R14, spec/30_encoding.md R60). -/
abbrev Instr.WellFormed (i : Instr) : Prop := ∀ r ∈ i.regOperands, r.toNat ≤ 7

end Sys2Proof
end

