-- ==== Sys2Proof/Safety.lean ====
section
/-! DEFINITION. The terms the claims use: what an effect leaves unchanged, the invariant of the machine, and an
independent account, on the raw bytes at pc, of which fault a step raises first. -/

namespace Sys2Proof.Machine

/-! ## Safe runs -/

/-- A state no fault has been taken in. A safe run is one whose every state is such. -/
abbrev State.FaultFree (s : State) : Prop := ∀ r, s.status ≠ .faulted r

/-- A clean end: a HLT has executed (spec/40_engine_cycle.md R77). -/
abbrev State.CleanEnd (s : State) : Prop := s.status = .halted

/-! ## Frames -/

/-- From `s` to `t` every register but those listed keeps its value. -/
def KeepsRegsBut (ds : List RegIdx) (s t : State) : Prop := ∀ j, j ∉ ds → t.reg j = s.reg j

/-- From `s` to `t` every byte of memory keeps its value. -/
def KeepsMem (s t : State) : Prop := ∀ a, t.mem.read a = s.mem.read a

/-- From `s` to `t` every byte of memory but the one at address `b` keeps its value. -/
def KeepsMemBut (b : Nat) (s t : State) : Prop := ∀ a, a ≠ b → t.mem.read a = s.mem.read a

/-! ## The invariant -/

/-- The only values FL ever holds (spec/10_state.md R18). -/
abbrev LegalFlags (fl : Byte) : Prop := fl = 0x00 ∨ fl = 0x01 ∨ fl = 0x02 ∨ fl = 0x04

/-- The invariant every step keeps: memory is canonical; pc holds one of the values 0 to 258 it can actually take
(spec/10_state.md R16); FL is legal (R18). -/
abbrev MachineInv (s : State) : Prop := Memory.wf s.mem ∧ s.pc.toNat ≤ 258 ∧ LegalFlags s.fl

/-! ## The first fault of a step, read off the raw bytes (spec/60_exceptions.md R140) -/

/-- The byte at address pc + k. -/
def State.byteAt (s : State) (k : Nat) : Byte := s.mem.read (s.pc.toNat + k)

/-- The legal opcode bytes in numeric order (spec/30_encoding.md R53). -/
def legalOpcodes : List Byte :=
  [0x01, 0x11, 0x45, 0x46, 0x47, 0x50, 0x54, 0x55, 0x56, 0x82, 0xA0, 0xA2, 0xA3, 0xA7]

/-- The register operand bytes the instruction at pc will access the register file with: LDI, PRN, PUSH, POP, CALL, JMP
their one operand; ADD, MUL, DIV, CMP both; JEQ and JNE theirs only when taken; HLT and RET none
(spec/60_exceptions.md R132). -/
def accessedAtPc (s : State) : List Byte :=
  if s.byteAt 0 ∈ ([0x82, 0x47, 0x45, 0x46, 0x50, 0x54] : List Byte) then [s.byteAt 1]
  else if s.byteAt 0 ∈ ([0xA0, 0xA2, 0xA3, 0xA7] : List Byte) then [s.byteAt 1, s.byteAt 2]
  else if s.byteAt 0 = 0x55 ∧ s.fl.getLsbD 0 = true then [s.byteAt 1]
  else if s.byteAt 0 = 0x56 ∧ s.fl.getLsbD 0 = false then [s.byteAt 1]
  else []

/-- The fault the step at `s` raises, if any: the first that applies in the order (1) OutOfBounds on the opcode fetch,
(2) IllegalInstruction, (3) OutOfBounds on an operand fetch, (4) InvalidRegister, (5) DivideByZero, (6) OutOfBounds on
a stack access (R140). The operand count is bits 7:6 of the opcode byte (spec/30_encoding.md R51). -/
def firstFault (s : State) : Option FaultKind :=
  if 255 < s.pc.toNat then some .outOfBounds
  else if s.byteAt 0 ∉ legalOpcodes then some .illegalInstruction
  else if 255 < s.pc.toNat + (s.byteAt 0 >>> 6).toNat then some .outOfBounds
  else if ∃ r ∈ accessedAtPc s, 7 < r.toNat then some .invalidRegister
  else if s.byteAt 0 = 0xA3 ∧ ∃ b : RegIdx, (s.byteAt 2).toNat = b.val ∧ s.reg b = 0 then some .divideByZero
  else if s.byteAt 0 ∈ ([0x45, 0x50] : List Byte) ∧ s.reg 7 = 0x00 then some .outOfBounds
  else if s.byteAt 0 ∈ ([0x46, 0x11] : List Byte) ∧ s.reg 7 = 0xFF then some .outOfBounds
  else none

/-! ## Per-instruction columns used by whole-machine claims -/

/-- The register operands an instruction accesses in state `s` (spec/60_exceptions.md R132). -/
def accessedRegs (i : Instr) (s : State) : List Byte :=
  match i with
  | .jeq r => if s.fl.getLsbD 0 then [r] else []
  | .jne r => if s.fl.getLsbD 0 then [] else [r]
  | i => i.regOperands

/-- The value the instruction sets the PC to, if it sets it: CALL, RET and JMP always, JEQ and JNE when taken, no other
(spec/30_encoding.md R59, spec/44_control_transfer.md R110). The value is an address 0..255. -/
def jumpTarget (i : Instr) (s : State) : Option Byte :=
  match i with
  | .call r => (checkReg r).map s.reg
  | .jmp r => (checkReg r).map s.reg
  | .jeq r => if s.fl.getLsbD 0 then (checkReg r).map s.reg else none
  | .jne r => if s.fl.getLsbD 0 then none else (checkReg r).map s.reg
  | .ret => some (s.mem.read (s.reg 7).toNat)
  | _ => none

end Sys2Proof.Machine
end

