-- ==== Sys2Proof/Certificates/Slice0/Obligations.lean ====
section
/-! DEFINITION. The statements for the provers. Each docstring names the rule of spec/ it formalises; "decision D<n>" is a
choice of the spec itself (spec/92_eei_decisions.md), so a statement that rests on one is marked derived. Register operands
are whole bytes: `r.toNat = d.val` says that the byte `r` names the register `d` (0..7), and `7 < r.toNat` that it names
none; together they are every byte. -/

open Sys2Proof Sys2Proof.Machine

/-! ## Encoding -/

/-- 30_encoding.md section 3 (R53): the bytes of each of the 14 instructions, written out from the table, decode to it,
with every operand byte at every value. -/
def Obligations.TableBytesDecode : Prop :=
  ∀ (r q : Byte) (rest : List Byte),
    decode (0b00000001 :: rest) = .ok (.hlt, rest) ∧
    decode (0b10000010 :: r :: q :: rest) = .ok (.ldi r q, rest) ∧
    decode (0b01000111 :: r :: rest) = .ok (.prn r, rest) ∧
    decode (0b10100000 :: r :: q :: rest) = .ok (.add r q, rest) ∧
    decode (0b10100010 :: r :: q :: rest) = .ok (.mul r q, rest) ∧
    decode (0b10100011 :: r :: q :: rest) = .ok (.div r q, rest) ∧
    decode (0b10100111 :: r :: q :: rest) = .ok (.cmp r q, rest) ∧
    decode (0b01000101 :: r :: rest) = .ok (.push r, rest) ∧
    decode (0b01000110 :: r :: rest) = .ok (.pop r, rest) ∧
    decode (0b01010000 :: r :: rest) = .ok (.call r, rest) ∧
    decode (0b00010001 :: rest) = .ok (.ret, rest) ∧
    decode (0b01010100 :: r :: rest) = .ok (.jmp r, rest) ∧
    decode (0b01010101 :: r :: rest) = .ok (.jeq r, rest) ∧
    decode (0b01010110 :: r :: rest) = .ok (.jne r, rest)

/-- Decode and encode agree, both ways, for EVERY instruction (every register byte, valid or not, and every immediate): bytes
decode to `i` and leave `rest` exactly when they are the encoding of `i` followed by `rest`. So no bit of an encoding is
dropped and no byte sequence has two meanings (30_encoding.md sections 1 to 3). -/
def Obligations.DecodeAndEncodeAgree : Prop :=
  ∀ (bs : List Byte) (i : Instr) (rest : List Byte), decode bs = .ok (i, rest) ↔ bs = encode i ++ rest

/-- A legal opcode byte `op` begins an instruction of 1 + op[7:6] bytes, and what follows begins right after it (30_encoding.md
section 3, R63; section 1, R51). -/
def Obligations.HighBitsGiveTheLength : Prop :=
  ∀ (op : Byte) (bs : List Byte) (i : Instr) (rest : List Byte), decode (op :: bs) = .ok (i, rest) →
    (encode i).length = 1 + (op >>> 6).toNat ∧ rest = bs.drop (op >>> 6).toNat ∧ (op >>> 6).toNat ≤ bs.length

/-! ## Reset and ingestion -/

/-- R25: after reset and ingestion of a program image, pc = 0, x[7] = 0xF4, status = Running, and the bytes of the image
stand at addresses 0, 1, 2, … in order. -/
def Obligations.LoadedMachineHoldsTheStatedResetValues : Prop :=
  ∀ image : List Byte, image.length ≤ 256 →
    ∃ s, loadProgram image = .ok s ∧ s.pc = 0 ∧ s.reg 7 = 0xF4 ∧ s.status = .running ∧
      s.runningFlag = true ∧ ∀ (a : Nat) (h : a < image.length), s.mem.read a = image[a]

/-- The values the source does not state and the spec decides (decisions D2, D3, D4, D13; log 2, 3, 4, 5, 13): R0 to R6 and FL
are 0x00, OUT is empty, every cell the image does not cover is 0x00, and an image of more than 256 bytes is a
LoadError. -/
def Obligations.LoadedMachineHoldsTheDecidedResetValues : Prop :=
  ∀ image : List Byte,
    (image.length ≤ 256 → ∃ s, loadProgram image = .ok s ∧ (∀ j : RegIdx, j ≠ 7 → s.reg j = 0x00) ∧ s.fl = 0x00 ∧
      s.out = [] ∧ ∀ a, image.length ≤ a → s.mem.read a = 0x00) ∧
    (256 < image.length → loadProgram image = .error .imageTooLong)

/-- The machine's invariant holds right after reset (its FL part by decision D3; log 3). -/
def Obligations.ResetMeetsTheInvariant : Prop := MachineInv State.reset

/-- The machine's invariant holds in every machine that ingestion yields (its FL part by decision D3; log 3). -/
def Obligations.LoadedMachineMeetsTheInvariant : Prop :=
  ∀ (image : List Byte) (s : State), loadProgram image = .ok s → MachineInv s

/-! ## Memory -/

/-- MemWrite sets the one cell to v mod 256 and changes no other cell; outside 0..255 it raises OutOfBounds (20_memory.md
section 2, R32). That it keeps the canonical form is about the model's own way to write memory. -/
def Obligations.MemoryWriteSetsOneCellModulo256 : Prop :=
  ∀ (m : Memory) (a v : Nat),
    (a ≤ 255 → ∃ m', memWrite m a v = some m' ∧ (m'.read a).toNat = v % 256 ∧ (∀ b, b ≠ a → m'.read b = m.read b) ∧
      (m.wf → m'.wf)) ∧
    (255 < a → memWrite m a v = none)

/-! ## The step -/

/-- A step runs the instruction the bytes at pc are: while Running, when the bytes of `i` stand at pc, pc + 1, … inside
memory, the step is `exec i`; the step adds nothing around it (40_engine_cycle.md section 2). -/
def Obligations.StepRunsTheInstructionAtPc : Prop :=
  ∀ (s : State) (i : Instr), s.status = .running → s.pc.toNat + i.operandCount ≤ 255 →
    (∀ (k : Nat) (h : k < (encode i).length), s.mem.read (s.pc.toNat + k) = (encode i)[k]) →
    step s = exec i s

/-- A step is enabled if and only if status is Running: then it answers a next state, and in Halted and in Faulted it
stops by name. The first half is 40_engine_cycle.md section 1 (R66); that a machine which is not Running never changes is
decision D24, and the form of the stop is the model's (log 15). -/
def Obligations.StepIsEnabledExactlyWhileRunning : Prop :=
  ∀ s : State,
    ((∃ t, step s = .next t) ↔ s.status = .running) ∧
    (s.status = .halted → step s = .fault .engineHalted) ∧
    ((∃ r, s.status = .faulted r) → step s = .fault .engineFaulted)

/-- No instruction is refused and none stops the model, in any state and with any operand bytes: its meaning answers a
next state, which is the effect or the fault the spec gives it (40_engine_cycle.md section 3, R72 and R74). -/
def Obligations.EveryInstructionAnswersANextState : Prop :=
  ∀ (i : Instr) (s : State), ∃ t, exec i s = .next t

/-- The fault raised is IllegalInstruction if and only if a byte was fetched at pc and it is not one of the 14 opcode bytes;
0x00 is among the others; the record carries the offending byte as op (60_exceptions.md section 1, R133). That nothing
but status changes is R139, which is decision D6 there (log 6). -/
def Obligations.IllegalInstructionExactlyOffTheTable : Prop :=
  ∀ s : State, s.status = .running →
    ((∃ t r, step s = .next t ∧ t.status = .faulted r ∧ r.kind = .illegalInstruction) ↔
      (s.pc.toNat ≤ 255 ∧ s.byteAt 0 ∉ legalOpcodes)) ∧
    (s.pc.toNat ≤ 255 → s.byteAt 0 ∉ legalOpcodes →
      step s = .next { s with status := .faulted ⟨.illegalInstruction, s.pc, some (s.byteAt 0)⟩ }) ∧
    (0x00 : Byte) ∉ legalOpcodes ∧ legalOpcodes.length = 14 ∧ legalOpcodes.Nodup

/-- A fetch beyond memory raises OutOfBounds and changes nothing else (R139, decision D6; log 6): on the opcode byte with no
opcode in the record (decision D7; log 7), on an operand byte, whether or not the instruction will use it, with the
opcode (40_engine_cycle.md section 2, R67 and R69). -/
def Obligations.FetchBeyondMemoryIsOutOfBounds : Prop :=
  ∀ s : State, s.status = .running →
    (255 < s.pc.toNat → step s = .next { s with status := .faulted ⟨.outOfBounds, s.pc, none⟩ }) ∧
    (s.pc.toNat ≤ 255 → s.byteAt 0 ∈ legalOpcodes → 255 < s.pc.toNat + (s.byteAt 0 >>> 6).toNat →
      step s = .next { s with status := .faulted ⟨.outOfBounds, s.pc, some (s.byteAt 0)⟩ })

/-! ## HLT, LDI, PRN -/

/-- HLT: encoding, effect, frame, that no further step is taken, and that no other instruction ends a run cleanly
(41_data_io_halt.md, HLT, R80). That pc advances by 1 is read from the general sentence on the engine (decision D18 and
conflict C9; log 16); that the stop after it is a step without a next state is the model's form of it (decision D24;
log 15). -/
def Obligations.HltHaltsAndAdvances : Prop :=
  encode .hlt = [0b00000001] ∧
  (∀ (i : Instr) (s t : State), s.status = .running → exec i s = .next t → t.status = .halted → i = .hlt) ∧
  ∀ s : State, ∃ t, exec .hlt s = .next t ∧ t.status = .halted ∧ t.runningFlag = false ∧ t.pc = s.pc + 1 ∧
    KeepsRegsBut [] s t ∧ KeepsMem s t ∧ t.fl = s.fl ∧ t.out = s.out ∧ ∀ u, step t ≠ .next u

/-- R81, whole: LDI r, imm loads the immediate into x[r] (R7 too), or raises InvalidRegister if r > 7. -/
def Obligations.LdiLoadsTheImmediate : Prop :=
  ∀ (r imm : Byte) (s : State),
    encode (.ldi r imm) = [0b10000010, r, imm] ∧
    (∀ d : RegIdx, r.toNat = d.val →
      ∃ t, exec (.ldi r imm) s = .next t ∧ t.reg d = imm ∧ KeepsRegsBut [d] s t ∧ KeepsMem s t ∧ t.fl = s.fl ∧
        t.out = s.out ∧ t.status = s.status ∧ t.pc = s.pc + 3) ∧
    (7 < r.toNat →
      exec (.ldi r imm) s = .next { s with status := .faulted ⟨.invalidRegister, s.pc, some 0b10000010⟩ })

/-- R82, whole: PRN r appends x[r] to OUT, or raises InvalidRegister if r > 7. -/
def Obligations.PrnEmitsTheRegister : Prop :=
  ∀ (r : Byte) (s : State),
    encode (.prn r) = [0b01000111, r] ∧
    (∀ d : RegIdx, r.toNat = d.val →
      ∃ t, exec (.prn r) s = .next t ∧ t.out = s.out ++ [s.reg d] ∧ KeepsRegsBut [] s t ∧ KeepsMem s t ∧ t.fl = s.fl ∧
        t.status = s.status ∧ t.pc = s.pc + 2) ∧
    (7 < r.toNat →
      exec (.prn r) s = .next { s with status := .faulted ⟨.invalidRegister, s.pc, some 0b01000111⟩ })

/-! ## ADD, MUL, DIV, CMP -/

/-- R91, whole: ADD ra, rb leaves (a + b) mod 256 in x[ra]. -/
def Obligations.AddIsTheSumModulo256 : Prop :=
  ∀ (ra rb : Byte) (s : State),
    encode (.add ra rb) = [0b10100000, ra, rb] ∧
    (∀ a b : RegIdx, ra.toNat = a.val → rb.toNat = b.val →
      ∃ t, exec (.add ra rb) s = .next t ∧ (t.reg a).toNat = ((s.reg a).toNat + (s.reg b).toNat) % 256 ∧
        KeepsRegsBut [a] s t ∧ KeepsMem s t ∧ t.fl = s.fl ∧ t.out = s.out ∧ t.status = s.status ∧ t.pc = s.pc + 3) ∧
    (7 < ra.toNat ∨ 7 < rb.toNat →
      exec (.add ra rb) s = .next { s with status := .faulted ⟨.invalidRegister, s.pc, some 0b10100000⟩ })

/-- R92, whole: MUL ra, rb leaves the low 8 bits of the product in x[ra]. -/
def Obligations.MulIsTheProductModulo256 : Prop :=
  ∀ (ra rb : Byte) (s : State),
    encode (.mul ra rb) = [0b10100010, ra, rb] ∧
    (∀ a b : RegIdx, ra.toNat = a.val → rb.toNat = b.val →
      ∃ t, exec (.mul ra rb) s = .next t ∧ (t.reg a).toNat = ((s.reg a).toNat * (s.reg b).toNat) % 256 ∧
        KeepsRegsBut [a] s t ∧ KeepsMem s t ∧ t.fl = s.fl ∧ t.out = s.out ∧ t.status = s.status ∧ t.pc = s.pc + 3) ∧
    (7 < ra.toNat ∨ 7 < rb.toNat →
      exec (.mul ra rb) s = .next { s with status := .faulted ⟨.invalidRegister, s.pc, some 0b10100010⟩ })

/-- R93, whole: DIV ra, rb leaves the floor of a / b in x[ra]; a zero divisor raises DivideByZero, an invalid operand
InvalidRegister first, and then nothing but status changes. -/
def Obligations.DivIsTheFloorOrFaults : Prop :=
  ∀ (ra rb : Byte) (s : State),
    encode (.div ra rb) = [0b10100011, ra, rb] ∧
    (∀ a b : RegIdx, ra.toNat = a.val → rb.toNat = b.val → (s.reg b).toNat ≠ 0 →
      ∃ t, exec (.div ra rb) s = .next t ∧ (t.reg a).toNat = (s.reg a).toNat / (s.reg b).toNat ∧
        KeepsRegsBut [a] s t ∧ KeepsMem s t ∧ t.fl = s.fl ∧ t.out = s.out ∧ t.status = s.status ∧ t.pc = s.pc + 3) ∧
    (∀ a b : RegIdx, ra.toNat = a.val → rb.toNat = b.val → (s.reg b).toNat = 0 →
      exec (.div ra rb) s = .next { s with status := .faulted ⟨.divideByZero, s.pc, some 0b10100011⟩ }) ∧
    (7 < ra.toNat ∨ 7 < rb.toNat →
      exec (.div ra rb) s = .next { s with status := .faulted ⟨.invalidRegister, s.pc, some 0b10100011⟩ })

/-- R94, whole: CMP ra, rb writes all eight bits of FL, 0x01, 0x02 or 0x04 for a = b, a > b, a < b unsigned, and no
register. -/
def Obligations.CmpWritesTheFlagsOnly : Prop :=
  ∀ (ra rb : Byte) (s : State),
    encode (.cmp ra rb) = [0b10100111, ra, rb] ∧
    (∀ a b : RegIdx, ra.toNat = a.val → rb.toNat = b.val →
      ∃ t, exec (.cmp ra rb) s = .next t ∧
        ((s.reg a).toNat = (s.reg b).toNat → t.fl = 0b00000001) ∧
        ((s.reg a).toNat > (s.reg b).toNat → t.fl = 0b00000010) ∧
        ((s.reg a).toNat < (s.reg b).toNat → t.fl = 0b00000100) ∧
        KeepsRegsBut [] s t ∧ KeepsMem s t ∧ t.out = s.out ∧ t.status = s.status ∧ t.pc = s.pc + 3) ∧
    (7 < ra.toNat ∨ 7 < rb.toNat →
      exec (.cmp ra rb) s = .next { s with status := .faulted ⟨.invalidRegister, s.pc, some 0b10100111⟩ })

/-! ## PUSH, POP -/

/-- PUSH r with SP ≠ 0 stores x[r] as it was BEFORE the decrement at SP - 1 and leaves SP - 1 in R7 (43_stack.md, PUSH).
For r = 7 the order is decision D9 (log 9); that SP = 0 is excluded decision D8 (log 8). -/
def Obligations.PushStoresBelowTheStackPointer : Prop :=
  ∀ (r : Byte) (s : State) (d : RegIdx), r.toNat = d.val → s.reg 7 ≠ 0x00 →
    ∃ a t, pushAddr s = some a ∧ a + 1 = (s.reg 7).toNat ∧ exec (.push r) s = .next t ∧
      (t.reg 7).toNat = a ∧ KeepsRegsBut [7] s t ∧ t.mem.read a = s.reg d ∧ KeepsMemBut a s t ∧
      t.fl = s.fl ∧ t.out = s.out ∧ t.status = s.status ∧ t.pc = s.pc + 2

/-- POP r with SP ≠ 0xFF loads the byte at SP into x[r] and leaves SP + 1 in R7, the destination last, so that POP R7 keeps
the popped byte (43_stack.md, POP; for r = 7 decision D9, log 9; that SP = 0xFF is excluded decision D8, log 8). -/
def Obligations.PopLoadsFromTheStackPointer : Prop :=
  ∀ (r : Byte) (s : State) (d : RegIdx), r.toNat = d.val → s.reg 7 ≠ 0xFF →
    ∃ t, exec (.pop r) s = .next t ∧ t.reg d = s.mem.read (s.reg 7).toNat ∧
      (d ≠ 7 → (t.reg 7).toNat = (s.reg 7).toNat + 1) ∧ KeepsRegsBut [7, d] s t ∧ KeepsMem s t ∧
      t.fl = s.fl ∧ t.out = s.out ∧ t.status = s.status ∧ t.pc = s.pc + 2

/-- The stack never leaves memory: PUSH and CALL at SP = 0x00, POP and RET at SP = 0xFF raise OutOfBounds and change nothing
else (43_stack.md section 1, decisions D6 and D8; log 6 and 8); an invalid operand is reported first
(decision D11, log 11). -/
def Obligations.StackAccessBeyondMemoryIsOutOfBounds : Prop :=
  ∀ (r : Byte) (s : State),
    (r.toNat ≤ 7 → s.reg 7 = 0x00 →
      exec (.push r) s = .next { s with status := .faulted ⟨.outOfBounds, s.pc, some 0b01000101⟩ } ∧
      exec (.call r) s = .next { s with status := .faulted ⟨.outOfBounds, s.pc, some 0b01010000⟩ }) ∧
    (r.toNat ≤ 7 → s.reg 7 = 0xFF →
      exec (.pop r) s = .next { s with status := .faulted ⟨.outOfBounds, s.pc, some 0b01000110⟩ }) ∧
    (s.reg 7 = 0xFF → exec .ret s = .next { s with status := .faulted ⟨.outOfBounds, s.pc, some 0b00010001⟩ }) ∧
    (7 < r.toNat →
      exec (.push r) s = .next { s with status := .faulted ⟨.invalidRegister, s.pc, some 0b01000101⟩ } ∧
      exec (.call r) s = .next { s with status := .faulted ⟨.invalidRegister, s.pc, some 0b01010000⟩ } ∧
      exec (.pop r) s = .next { s with status := .faulted ⟨.invalidRegister, s.pc, some 0b01000110⟩ })

/-- The push-pop law (43_stack.md section 2, R105, which the spec derives): PUSH Ra then POP Rb copies x[a] to x[b] and,
for b ≠ 7, restores SP; for a = b (R7 included) no register changes at all; the PC has moved by 4 and at most the
cell below SP differs. R7 as an operand rests on decision D9 (log 9), the excluded SP = 0 on decision D8 (log 8). -/
def Obligations.PushThenPopCopiesAndRestores : Prop :=
  ∀ (ra rb : Byte) (s : State) (a b : RegIdx), ra.toNat = a.val → rb.toNat = b.val → s.reg 7 ≠ 0x00 →
    ∃ t u, exec (.push ra) s = .next t ∧ exec (.pop rb) t = .next u ∧ u.reg b = s.reg a ∧
      (b ≠ 7 → u.reg 7 = s.reg 7) ∧ KeepsRegsBut [7, b] s u ∧ (a = b → KeepsRegsBut [] s u) ∧
      u.mem.read ((s.reg 7).toNat - 1) = s.reg a ∧ KeepsMemBut ((s.reg 7).toNat - 1) s u ∧
      u.fl = s.fl ∧ u.out = s.out ∧ u.status = s.status ∧ u.pc = s.pc + 4

/-- A store is seen by the next fetch (20_memory.md section 6, decision D14; log 14): when PUSH stores to the address pc
then holds, the first byte the next step fetches is the byte pushed. For PUSH R7 that byte is the old SP, which is decision
D9 (log 9). -/
def Obligations.PushedByteIsFetchedNext : Prop :=
  ∀ (r : Byte) (s t : State) (d : RegIdx), r.toNat = d.val → s.reg 7 ≠ 0x00 → exec (.push r) s = .next t →
    t.pc.toNat + 1 = (s.reg 7).toNat → (fetchWindow t).head? = some (s.reg d)

/-! ## CALL, RET, JMP, JEQ, JNE -/

/-- CALL r with SP ≠ 0 pushes (pc + 2) mod 256 at SP - 1 and jumps to x[r] as it was before SP moved
(44_control_transfer.md, CALL; decisions D9, D12; log 9 and 12; that SP = 0 is excluded
decision D8, log 8). -/
def Obligations.CallPushesTheReturnAddressAndJumps : Prop :=
  ∀ (r : Byte) (s : State) (d : RegIdx), r.toNat = d.val → s.reg 7 ≠ 0x00 →
    ∃ a t, pushAddr s = some a ∧ a + 1 = (s.reg 7).toNat ∧ exec (.call r) s = .next t ∧
      t.pc.toNat = (s.reg d).toNat ∧ (t.reg 7).toNat = a ∧ KeepsRegsBut [7] s t ∧
      (t.mem.read a).toNat = (s.pc.toNat + 2) % 256 ∧ KeepsMemBut a s t ∧
      t.fl = s.fl ∧ t.out = s.out ∧ t.status = s.status

/-- RET with SP ≠ 0xFF jumps to the byte at SP and leaves SP + 1 in R7 (44_control_transfer.md, RET; that SP = 0xFF is
excluded decision D8, log 8). -/
def Obligations.RetPopsThePc : Prop :=
  ∀ s : State, s.reg 7 ≠ 0xFF →
    ∃ t, exec .ret s = .next t ∧ t.pc.toNat = (s.mem.read (s.reg 7).toNat).toNat ∧
      (t.reg 7).toNat = (s.reg 7).toNat + 1 ∧ KeepsRegsBut [7] s t ∧ KeepsMem s t ∧
      t.fl = s.fl ∧ t.out = s.out ∧ t.status = s.status

/-- CALL then RET returns to call site + 2 whatever happened in between, as long as SP and the byte it points at are as
CALL left them (44_control_transfer.md section 1, R117). A CALL at 0xFE, whose return address is truncated to 0x00
(decision D12, log 12), and beyond is the second clause. -/
def Obligations.CallThenRetReturnsAfterTheCall : Prop :=
  ∀ (r : Byte) (s t u : State) (d : RegIdx), r.toNat = d.val → s.reg 7 ≠ 0x00 → exec (.call r) s = .next t →
    u.reg 7 = t.reg 7 → u.mem.read (u.reg 7).toNat = t.mem.read (t.reg 7).toNat →
    ∃ v, exec .ret u = .next v ∧ v.reg 7 = s.reg 7 ∧
      (s.pc.toNat ≤ 253 → v.pc.toNat = s.pc.toNat + 2) ∧ (s.pc.toNat = 254 → v.pc.toNat = 0)

/-- R113, whole: JMP r sets the PC to x[r], zero-extended, and changes nothing else. -/
def Obligations.JmpSetsThePc : Prop :=
  ∀ (r : Byte) (s : State),
    encode (.jmp r) = [0b01010100, r] ∧
    (∀ d : RegIdx, r.toNat = d.val →
      ∃ t, exec (.jmp r) s = .next t ∧ t.pc.toNat = (s.reg d).toNat ∧ KeepsRegsBut [] s t ∧ KeepsMem s t ∧
        t.fl = s.fl ∧ t.out = s.out ∧ t.status = s.status) ∧
    (7 < r.toNat →
      exec (.jmp r) s = .next { s with status := .faulted ⟨.invalidRegister, s.pc, some 0b01010100⟩ })

/-- JEQ r (44_control_transfer.md, JEQ): with FL bit 0 set it jumps to x[r], or raises InvalidRegister if r > 7; with FL
bit 0 clear it advances by 2 for EVERY operand byte (decision D10, log 10). Nothing else changes. -/
def Obligations.JeqBranchesWhenEqual : Prop :=
  ∀ (r : Byte) (s : State),
    (s.fl.getLsbD 0 = true → ∀ d : RegIdx, r.toNat = d.val →
      ∃ t, exec (.jeq r) s = .next t ∧ t.pc.toNat = (s.reg d).toNat ∧ KeepsRegsBut [] s t ∧ KeepsMem s t ∧
        t.fl = s.fl ∧ t.out = s.out ∧ t.status = s.status) ∧
    (s.fl.getLsbD 0 = true → 7 < r.toNat →
      exec (.jeq r) s = .next { s with status := .faulted ⟨.invalidRegister, s.pc, some 0b01010101⟩ }) ∧
    (s.fl.getLsbD 0 = false → exec (.jeq r) s = .next { s with pc := s.pc + 2 })

/-- JNE r (44_control_transfer.md, JNE): with FL bit 0 clear it jumps to x[r], or raises InvalidRegister if r > 7; with FL
bit 0 set it advances by 2 for EVERY operand byte (decision D10, log 10). Nothing else changes. -/
def Obligations.JneBranchesWhenNotEqual : Prop :=
  ∀ (r : Byte) (s : State),
    (s.fl.getLsbD 0 = false → ∀ d : RegIdx, r.toNat = d.val →
      ∃ t, exec (.jne r) s = .next t ∧ t.pc.toNat = (s.reg d).toNat ∧ KeepsRegsBut [] s t ∧ KeepsMem s t ∧
        t.fl = s.fl ∧ t.out = s.out ∧ t.status = s.status) ∧
    (s.fl.getLsbD 0 = false → 7 < r.toNat →
      exec (.jne r) s = .next { s with status := .faulted ⟨.invalidRegister, s.pc, some 0b01010110⟩ }) ∧
    (s.fl.getLsbD 0 = true → exec (.jne r) s = .next { s with pc := s.pc + 2 })

/-! ## Whole-machine rules -/

/-- Where the PC goes, for every instruction that takes no fault from a pc inside memory: to the target if the instruction
sets it (CALL, RET, JMP always, JEQ and JNE when taken), and otherwise forward by 1 + the operand count, without
wrap-around (40_engine_cycle.md section 2, R71; 44_control_transfer.md section 1, R110 and R116; for CALL R7 the target
is decision D9, log 9; that HLT advances is D18, log 16; that the PC can hold a value above 255 is D1, log 1). -/
def Obligations.PcIsTheTargetOrAdvancesByTheLength : Prop :=
  ∀ (i : Instr) (s t : State), s.status = .running → s.pc.toNat ≤ 255 → exec i s = .next t → t.FaultFree →
    t.pc.toNat = match jumpTarget i s with
      | some b => b.toNat
      | none => s.pc.toNat + (encode i).length

/-- Every step keeps the invariant, from EVERY state that meets it: memory stays canonical, pc stays within 0..258
(10_state.md R16, derived by the spec from the PC of decision D1; log 1), FL stays one of 0x00, 0x01, 0x02, 0x04 (R18,
derived by the spec). -/
def Obligations.EveryStepKeepsTheInvariant : Prop :=
  ∀ s t : State, MachineInv s → step s = .next t → MachineInv t

/-- Which fault a step raises, on the raw bytes at pc and independently of decoder and meanings: the first that applies in
the order of 60_exceptions.md section 3 (R140; item 4 before item 6 is decision D11, the precision of the fault D6, the
stack bounds D8, the unchecked branch D10, the absent opcode D7; log 11, 6, 8, 10, 7); and when none applies the step
takes none. -/
def Obligations.StepRaisesTheFirstFaultThatApplies : Prop :=
  ∀ s : State, s.status = .running →
    (∀ k, firstFault s = some k →
      step s = .next { s with
        status := .faulted ⟨k, s.pc, if s.pc.toNat ≤ 255 then some (s.byteAt 0) else none⟩ }) ∧
    (firstFault s = none → ∃ t, step s = .next t ∧ t.FaultFree)

/-- Faults are precise (60_exceptions.md section 2, R139, decision D6; log 6): a step that leaves the machine Faulted has
changed nothing but status, and the record's pc and opcode are those of the faulting instruction (absent exactly when
pc is beyond memory, decision D7; log 7). -/
def Obligations.FaultsChangeOnlyTheStatus : Prop :=
  ∀ (s t : State) (r : FaultRecord), step s = .next t → t.status = .faulted r →
    t = { s with status := .faulted r } ∧ r.pc = s.pc ∧
      (s.pc.toNat ≤ 255 → r.op = some (s.byteAt 0)) ∧ (255 < s.pc.toNat → r.op = none)

/-- R134: DivideByZero is raised only by DIV, exactly when its operands are valid and x[rb] = 0, and the destination
register is not mutated. -/
def Obligations.DivideByZeroOnlyByDiv : Prop :=
  ∀ (i : Instr) (s : State), s.status = .running →
    ((∃ t r, exec i s = .next t ∧ t.status = .faulted r ∧ r.kind = .divideByZero) ↔
      ∃ (ra rb : Byte) (a b : RegIdx), i = .div ra rb ∧ ra.toNat = a.val ∧ rb.toNat = b.val ∧ s.reg b = 0) ∧
    (∀ t r, exec i s = .next t → t.status = .faulted r → r.kind = .divideByZero → KeepsRegsBut [] s t)

/-- InvalidRegister is raised exactly when a register operand the instruction accesses is above 7 (60_exceptions.md
section 1, R132): never by HLT or RET, by JEQ and JNE only when taken (decision D10; log 10), and before any other
fault of the instruction (section 3; before a stack fault by decision D11; log 11). -/
def Obligations.InvalidRegisterExactlyOnAccess : Prop :=
  ∀ (i : Instr) (s : State), s.status = .running →
    ((∃ t r, exec i s = .next t ∧ t.status = .faulted r ∧ r.kind = .invalidRegister) ↔
      ∃ q ∈ accessedRegs i s, 7 < q.toNat)

/-- UnsupportedOperation is raised by no step (60_exceptions.md section 1, R135; 42_alu.md R95, derived by the spec,
decision D21; log 17); the ALU itself raises it for every operation code that is not one of the four. -/
def Obligations.UnsupportedOperationNeverRaised : Prop :=
  (∀ (s t : State) (r : FaultRecord), step s = .next t → t.status = .faulted r → r.kind ≠ .unsupportedOperation) ∧
  (∀ (code : Nat) (a b : Byte), aluApply (.other code) a b = .fails .unsupportedOperation)

/-- HLT is the only way into Halted (10_state.md R19): a step that leaves the machine Halted executed the byte 0x01 at pc, and
left pc one beyond it (40_engine_cycle.md R77; decisions D18 and, for HLT at 0xFF, D1; log 16 and 1). -/
def Obligations.HaltedOnlyByHlt : Prop :=
  ∀ s t : State, step s = .next t → t.status = .halted →
    s.pc.toNat ≤ 255 ∧ s.byteAt 0 = 0b00000001 ∧ t.pc.toNat = s.pc.toNat + 1 ∧ t.mem = s.mem

/-- CMP is the only instruction that writes FL (10_state.md section 4, R17). -/
def Obligations.OnlyCmpWritesFlags : Prop :=
  ∀ (i : Instr) (s t : State), (∀ ra rb, i ≠ .cmp ra rb) → exec i s = .next t → t.fl = s.fl

/-- Bits 7:1 of FL are read by no instruction, bit 0 only by JEQ and JNE (10_state.md section 4, R17): two states that
differ in FL alone, and for JEQ and JNE not in bit 0, go on alike in everything but FL. -/
def Obligations.OnlyTheEqualBitIsRead : Prop :=
  ∀ (i : Instr) (s : State) (f : Byte),
    ((∃ r, i = .jeq r ∨ i = .jne r) → f.getLsbD 0 = s.fl.getLsbD 0) →
    ∃ t u, exec i s = .next t ∧ exec i { s with fl := f } = .next u ∧ { u with fl := t.fl } = t

/-- Memory is written by PUSH and CALL alone, and only the cell below SP (20_memory.md section 3, R33;
spec/90_conflicts.md C3): POP and RET only read. That a PUSH or CALL at SP = 0 writes nothing is decisions D6 and D8 (log 6
and 8). -/
def Obligations.OnlyPushAndCallWriteMemory : Prop :=
  ∀ (i : Instr) (s t : State), exec i s = .next t →
    ((∀ r, i ≠ .push r ∧ i ≠ .call r) → KeepsMem s t) ∧
    (∀ a, pushAddr s = some a → KeepsMemBut a s t) ∧ (pushAddr s = none → KeepsMem s t)

/-- Registers are written only as 10_state.md section 2 (R11) lists: the first operand of LDI, ADD, MUL, DIV and POP, and R7
by PUSH, POP, CALL and RET; CMP, PRN, HLT and the jumps write none. -/
def Obligations.OnlyListedRegistersAreWritten : Prop :=
  ∀ (i : Instr) (s t : State) (j : RegIdx), exec i s = .next t → t.reg j ≠ s.reg j →
    (∃ r imm, (i = .ldi r imm ∨ i = .add r imm ∨ i = .mul r imm ∨ i = .div r imm ∨ i = .pop r) ∧ r.toNat = j.val) ∨
    (j = 7 ∧ (i = .ret ∨ ∃ r, i = .push r ∨ i = .pop r ∨ i = .call r))

/-- OUT only grows, by at most one value a step, and only PRN adds to it (10_state.md section 7, R28, decision
D13; log 13). -/
def Obligations.OutputIsAppendOnly : Prop :=
  (∀ s t : State, step s = .next t → ∃ l, t.out = s.out ++ l ∧ l.length ≤ 1) ∧
  (∀ (i : Instr) (s t : State), (∀ r, i ≠ .prn r) → exec i s = .next t → t.out = s.out)

/-- OUT is never read: what was printed before changes nothing but OUT itself, in any step (10_state.md section 7, R28,
decision D13; log 13). -/
def Obligations.OutputIsNeverRead : Prop :=
  ∀ (s t : State) (l : List Byte), step s = .next t →
    step { s with out := l ++ s.out } = .next { t with out := l ++ t.out }
end

