-- ==== Sys2Proof/Laws/Decode.lean ====
section
/-! SUPPORT. The opcode table and the decoder: what the table holds, and what a decode that succeeds or fails says. -/

namespace Sys2Proof

/-- The instruction that a table entry builds from the operand bytes it declares. -/
theorem lookup_opcode (i : Instr) :
    ∃ e, lookup i.opcode = some e ∧ e.operands = i.operandCount := by
  cases i <;> exact ⟨_, rfl, rfl⟩

theorem length_operandBytes (i : Instr) : i.operandBytes.length = i.operandCount := by cases i <;> rfl

theorem length_encode (i : Instr) : (encode i).length = 1 + i.operandCount := by
  rw [encode, List.length_cons, length_operandBytes, Nat.add_comm]

theorem encode_eq_cons (i : Instr) : encode i = i.opcode :: i.operandBytes := rfl

/-- An opcode that is found stands in the table with its entry. -/
theorem lookup_mem {op : Byte} {e : OpcodeEntry} (h : lookup op = some e) : (op, e) ∈ opcodeTable := by
  obtain ⟨before, after, htable, -⟩ := List.lookup_eq_some_iff.1 h
  rw [htable]
  exact List.mem_append_right _ List.mem_cons_self

/-- The operand count a table entry declares is bits 7:6 of its opcode (spec/30_encoding.md R55). -/
theorem lookup_operands {op : Byte} {e : OpcodeEntry} (h : lookup op = some e) : e.operands = (op >>> 6).toNat :=
  (show ∀ row ∈ opcodeTable, row.2.operands = (row.1 >>> 6).toNat by decide) (op, e) (lookup_mem h)

/-- Whatever operand bytes it is given, a table entry builds an instruction of opcode `op` with those operand bytes. -/
def OpcodeEntry.BuildsOnly (op : Byte) : OpcodeEntry → Prop
  | .zero i => i.opcode = op ∧ i.operandBytes = []
  | .one build => ∀ b, (build b).opcode = op ∧ (build b).operandBytes = [b]
  | .two build => ∀ b c, (build b c).opcode = op ∧ (build b c).operandBytes = [b, c]

/-- The columns of the table agree: each row builds the instruction whose opcode the row is filed under. -/
theorem lookup_buildsOnly {op : Byte} {e : OpcodeEntry} (h : lookup op = some e) : e.BuildsOnly op := by
  have rows : ∀ row ∈ opcodeTable, row.2.BuildsOnly row.1 := by
    simp [opcodeTable, OpcodeEntry.BuildsOnly, Instr.opcode, Instr.operandBytes]
  exact rows (op, e) (lookup_mem h)

/-- Bytes that decode are an opcode of the table with the operand bytes it declares, and then the rest. -/
theorem decode_ok {bs : List Byte} {i : Instr} {rest : List Byte} (h : decode bs = .ok (i, rest)) :
    ∃ op e, lookup op = some e ∧
      ((e = .zero i ∧ bs = op :: rest) ∨
       (∃ build b, e = .one build ∧ i = build b ∧ bs = op :: b :: rest) ∨
       (∃ build b c, e = .two build ∧ i = build b c ∧ bs = op :: b :: c :: rest)) := by
  cases bs with
  | nil => simp [decode] at h
  | cons op bs =>
    rcases hl : lookup op with _ | e
    · simp [decode, hl] at h
    · refine ⟨op, e, hl, ?_⟩
      rcases e with j | build | build
      · simp_all [decode]
      · rcases bs with _ | ⟨b, bs⟩
        · simp [decode, hl] at h
        · obtain ⟨rfl, rfl⟩ : build b = i ∧ bs = rest := by simpa [decode, hl] using h
          exact .inr (.inl ⟨build, b, rfl, rfl, rfl⟩)
      · rcases bs with _ | ⟨b, _ | ⟨c, bs⟩⟩
        · simp [decode, hl] at h
        · simp [decode, hl] at h
        · obtain ⟨rfl, rfl⟩ : build b c = i ∧ bs = rest := by simpa [decode, hl] using h
          exact .inr (.inr ⟨build, b, c, rfl, rfl, rfl⟩)

theorem decode_nil : decode [] = .error .noOpcode := rfl

/-- A byte that is not in the table is refused whatever follows it. -/
theorem decode_illegal {op : Byte} (rest : List Byte) (h : lookup op = none) :
    decode (op :: rest) = .error (.illegalOpcode op) := by simp [decode, h]

/-- An opcode of the table with too few bytes after it is refused as such. -/
theorem decode_short {op : Byte} {e : OpcodeEntry} {rest : List Byte} (h : lookup op = some e)
    (hr : rest.length < e.operands) : decode (op :: rest) = .error (.missingOperand op) := by
  cases e with
  | zero i => simp [OpcodeEntry.operands] at hr
  | one build =>
    obtain rfl : rest = [] := by simpa [OpcodeEntry.operands] using hr
    simp [decode, h]
  | two build =>
    match rest, hr with
    | [], _ => simp [decode, h]
    | [_], _ => simp [decode, h]

end Sys2Proof
end

