-- ==== Sys2Proof/Laws/Memory.lean ====
section
/-! SUPPORT. The laws of memory: a read after a write, and that every operation keeps the canonical form. -/

namespace Sys2Proof.Machine

@[simp] theorem read_nil (a : Nat) : Memory.read [] a = Config.resetMemFill := rfl

theorem read_cons (b : Nat) (v : Byte) (m : Memory) (a : Nat) :
    Memory.read ((b, v) :: m) a = if a = b then v else Memory.read m a := rfl

/-! ## Reading what is not listed, and what is -/

theorem read_of_not_listed {m : Memory} {a : Nat} (h : ∀ c ∈ m, c.1 ≠ a) :
    Memory.read m a = Config.resetMemFill := by
  induction m with
  | nil => rfl
  | cons c m ih =>
    obtain ⟨b, v⟩ := c
    rw [read_cons, if_neg (Ne.symm (h _ List.mem_cons_self)),
      ih fun c hc => h c (List.mem_cons_of_mem _ hc)]

theorem read_filter_same (m : Memory) (a : Nat) :
    Memory.read (m.filter fun c => c.1 ≠ a) a = Config.resetMemFill :=
  read_of_not_listed fun c hc => by simpa using (List.mem_filter.1 hc).2

theorem read_filter_ne (m : Memory) {a b : Nat} (h : b ≠ a) :
    Memory.read (m.filter fun c => c.1 ≠ a) b = Memory.read m b := by
  induction m with
  | nil => rfl
  | cons c m ih =>
    obtain ⟨d, v⟩ := c
    by_cases hd : d = a
    · rw [List.filter_cons_of_neg (by simp [hd]), ih, read_cons, if_neg (by omega)]
    · rw [List.filter_cons_of_pos (by simp [hd]), read_cons, read_cons, ih]

theorem read_insertCell_ne (m : Memory) {a b : Nat} (v : Byte) (h : b ≠ a) :
    Memory.read (m.insertCell a v) b = Memory.read m b := by
  induction m with
  | nil => simp [Memory.insertCell, read_cons, h]
  | cons c m ih =>
    obtain ⟨d, w⟩ := c
    unfold Memory.insertCell
    split
    · rw [read_cons, if_neg h]
    · rw [read_cons, read_cons, ih]

theorem read_insertCell_same {m : Memory} {a : Nat} (v : Byte) (h : ∀ c ∈ m, c.1 ≠ a) :
    Memory.read (m.insertCell a v) a = v := by
  induction m with
  | nil => simp [Memory.insertCell, read_cons]
  | cons c m ih =>
    obtain ⟨d, w⟩ := c
    unfold Memory.insertCell
    split
    · rw [read_cons, if_pos rfl]
    · rw [read_cons, if_neg (Ne.symm (h _ List.mem_cons_self)),
        ih fun c hc => h c (List.mem_cons_of_mem _ hc)]

/-! ## Read after write -/

@[simp] theorem read_write_same (m : Memory) (a : Nat) (v : Byte) : (m.write a v).read a = v := by
  unfold Memory.write
  split
  · next h => rw [read_filter_same, h]
  · exact read_insertCell_same v fun c hc => by simpa using (List.mem_filter.1 hc).2

theorem read_write_ne (m : Memory) {a b : Nat} (v : Byte) (h : b ≠ a) : (m.write a v).read b = m.read b := by
  unfold Memory.write
  split
  · exact read_filter_ne m h
  · rw [read_insertCell_ne _ v h, read_filter_ne m h]

/-! ## The canonical form -/

theorem mem_insertCell {m : Memory} {a : Nat} {v : Byte} {c : Host.Cell} (h : c ∈ m.insertCell a v) :
    c = (a, v) ∨ c ∈ m := by
  induction m with
  | nil => simpa [Memory.insertCell] using h
  | cons d m ih =>
    obtain ⟨b, w⟩ := d
    unfold Memory.insertCell at h
    split at h
    · simpa using h
    · rcases List.mem_cons.1 h with h | h
      · exact .inr (h ▸ List.mem_cons_self)
      · exact (ih h).imp_right (List.mem_cons_of_mem _)

theorem insertCell_pairwise {m : Memory} {a : Nat} (v : Byte) (h : m.Pairwise fun c d => c.1 < d.1)
    (ha : ∀ c ∈ m, c.1 ≠ a) : (m.insertCell a v).Pairwise fun c d => c.1 < d.1 := by
  induction m with
  | nil => simp [Memory.insertCell]
  | cons c m ih =>
    obtain ⟨b, w⟩ := c
    obtain ⟨hb, hm⟩ := List.pairwise_cons.1 h
    have hab : b ≠ a := ha _ List.mem_cons_self
    unfold Memory.insertCell
    split
    · next hlt =>
      refine List.pairwise_cons.2 ⟨fun d hd => ?_, h⟩
      rcases List.mem_cons.1 hd with hd | hd
      · exact hd ▸ hlt
      · exact hlt.trans (hb d hd)
    · next hge =>
      refine List.pairwise_cons.2 ⟨fun d hd => ?_, ih hm fun d hd => ha d (List.mem_cons_of_mem _ hd)⟩
      rcases mem_insertCell hd with hd | hd
      · simp only [hd]; omega
      · exact hb d hd

theorem wf_nil : Memory.wf [] := ⟨List.Pairwise.nil, fun _ h => absurd h List.not_mem_nil⟩

theorem write_wf {m : Memory} {a : Nat} (v : Byte) (h : m.wf) (ha : a ≤ 255) : (m.write a v).wf := by
  have hp := h.1.filter (fun c => decide (c.1 ≠ a))
  have hm : ∀ c ∈ m.filter (fun c => c.1 ≠ a), c.1 ≤ Config.addrMax ∧ c.2 ≠ Config.resetMemFill :=
    fun c hc => h.2 c (List.mem_filter.1 hc).1
  unfold Memory.write
  split
  · exact ⟨hp, hm⟩
  · next hv =>
    refine ⟨insertCell_pairwise v hp fun c hc => by simpa using (List.mem_filter.1 hc).2, fun c hc => ?_⟩
    rcases mem_insertCell hc with rfl | hc
    · exact ⟨ha, hv⟩
    · exact hm c hc

/-- Two canonical memories that read the same everywhere are the same list. -/
theorem wf_ext {m n : Memory} (hm : m.wf) (hn : n.wf) (h : ∀ a, m.read a = n.read a) : m = n := by
  induction m generalizing n with
  | nil =>
    cases n with
    | nil => rfl
    | cons d n =>
      have := h d.1
      rw [read_nil, show d = (d.1, d.2) from rfl, read_cons, if_pos rfl] at this
      exact absurd this.symm (hn.2 d List.mem_cons_self).2
  | cons c m ih =>
    have tail_wf {c : Host.Cell} {m : Memory} (hc : Memory.wf (c :: m)) : Memory.wf m :=
      ⟨(List.pairwise_cons.1 hc.1).2, fun d hd => hc.2 d (List.mem_cons_of_mem _ hd)⟩
    have low {c : Host.Cell} {m : Memory} (hc : Memory.wf (c :: m)) {a : Nat} (ha : a ≤ c.1) :
        Memory.read m a = Config.resetMemFill :=
      read_of_not_listed fun d hd => by have := (List.pairwise_cons.1 hc.1).1 d hd; omega
    cases n with
    | nil =>
      have := h c.1
      rw [read_nil, show c = (c.1, c.2) from rfl, read_cons, if_pos rfl] at this
      exact absurd this (hm.2 c List.mem_cons_self).2
    | cons d n =>
      obtain ⟨a, v⟩ := c
      obtain ⟨b, w⟩ := d
      have hv := (hm.2 _ List.mem_cons_self).2
      have hw := (hn.2 _ List.mem_cons_self).2
      have hab : a = b := by
        rcases Nat.lt_trichotomy a b with hlt | heq | hgt
        · have := h a
          rw [read_cons, if_pos rfl, read_cons, if_neg (by omega), low hn (by simpa using hlt.le)] at this
          exact absurd this hv
        · exact heq
        · have := h b
          rw [read_cons, if_neg (by omega), low hm (by simpa using hgt.le), read_cons, if_pos rfl] at this
          exact absurd this.symm hw
      subst hab
      have hvw : v = w := by simpa [read_cons] using h a
      subst hvw
      rw [ih (tail_wf hm) (tail_wf hn) fun x => by
        by_cases hx : x = a
        · rw [hx, low hm (le_refl _), low hn (le_refl _)]
        · simpa [read_cons, hx] using h x]

/-! ## The two access primitives (spec/20_memory.md R31, R32) -/

theorem memRead_inside (m : Memory) {a : Nat} (h : a ≤ 255) : memRead m a = some (m.read a) := if_pos h

theorem memRead_outside (m : Memory) {a : Nat} (h : 255 < a) : memRead m a = none :=
  if_neg (by simpa [Config.addrMax] using h)

theorem memWrite_inside (m : Memory) {a : Nat} (v : Nat) (h : a ≤ 255) :
    memWrite m a v = some (m.write a (trunc8 v)) := if_pos h

theorem memWrite_outside (m : Memory) {a : Nat} (v : Nat) (h : 255 < a) : memWrite m a v = none :=
  if_neg (by simpa [Config.addrMax] using h)

/-! ## Ingestion -/

theorem writeFrom_wf {m : Memory} (bs : List Byte) {a : Nat} (h : m.wf) (ha : a + bs.length ≤ 256) :
    (m.writeFrom a bs).wf := by
  induction bs generalizing m a with
  | nil => exact h
  | cons b bs ih =>
    rw [List.length_cons] at ha
    exact ih (write_wf b h (by omega)) (by omega)

/-- What memory reads as after consecutive bytes were stored from address `a`. -/
theorem read_writeFrom (m : Memory) (a : Nat) (bs : List Byte) (x : Nat) :
    (m.writeFrom a bs).read x = if a ≤ x then (bs[x - a]?).getD (m.read x) else m.read x := by
  induction bs generalizing m a with
  | nil => simp [Memory.writeFrom]
  | cons b bs ih =>
    rw [Memory.writeFrom, ih]
    rcases Nat.lt_trichotomy x a with h | rfl | h
    · rw [if_neg (by omega), if_neg (by omega), read_write_ne _ _ (by omega)]
    · rw [if_neg (by omega), if_pos (le_refl _), read_write_same]
      simp
    · rw [if_pos (by omega), if_pos (by omega), read_write_ne _ _ (by omega),
        show x - a = x - (a + 1) + 1 by omega, List.getElem?_cons_succ]

end Sys2Proof.Machine
end

