-- ==== Sys2Proof/Laws/State.lean ====
section
/-! SUPPORT. What each update of the state does to each field: one lemma per field per update. -/

namespace Sys2Proof.Machine

/-! ## Registers -/

@[simp] theorem trunc8_toNat (v : Byte) : trunc8 v.toNat = v := by simp [trunc8]

theorem toNat_trunc8 (v : Nat) : (trunc8 v).toNat = v % 256 := by simp [trunc8]

@[simp] theorem reg_setReg_same (s : State) (i : RegIdx) (v : Nat) : (s.setReg i v).reg i = trunc8 v := by
  simp [State.reg, State.setReg]

theorem reg_setReg_ne (s : State) {i j : RegIdx} (v : Nat) (h : j ≠ i) : (s.setReg i v).reg j = s.reg j := by
  have : i.val ≠ j.val := fun e => h (Fin.ext e.symm)
  simp [State.reg, State.setReg, this]

@[simp] theorem setReg_mem (s : State) (i : RegIdx) (v : Nat) : (s.setReg i v).mem = s.mem := rfl
@[simp] theorem setReg_fl (s : State) (i : RegIdx) (v : Nat) : (s.setReg i v).fl = s.fl := rfl
@[simp] theorem setReg_pc (s : State) (i : RegIdx) (v : Nat) : (s.setReg i v).pc = s.pc := rfl
@[simp] theorem setReg_status (s : State) (i : RegIdx) (v : Nat) : (s.setReg i v).status = s.status := rfl
@[simp] theorem setReg_out (s : State) (i : RegIdx) (v : Nat) : (s.setReg i v).out = s.out := rfl

/-- The register the stack uses is R7. -/
theorem sp_eq (s : State) : s.sp = s.reg 7 := rfl

theorem setSp_eq (s : State) (v : Nat) : s.setSp v = s.setReg 7 v := rfl

@[simp] theorem setSp_mem (s : State) (v : Nat) : (s.setSp v).mem = s.mem := rfl
@[simp] theorem setSp_fl (s : State) (v : Nat) : (s.setSp v).fl = s.fl := rfl
@[simp] theorem setSp_pc (s : State) (v : Nat) : (s.setSp v).pc = s.pc := rfl
@[simp] theorem setSp_status (s : State) (v : Nat) : (s.setSp v).status = s.status := rfl
@[simp] theorem setSp_out (s : State) (v : Nat) : (s.setSp v).out = s.out := rfl

/-! ## Memory, FL and status replaced -/

@[simp] theorem setMem_reg (s : State) (m : Memory) (i : RegIdx) : (s.setMem m).reg i = s.reg i := rfl
@[simp] theorem setMem_mem (s : State) (m : Memory) : (s.setMem m).mem = m := rfl
@[simp] theorem setMem_fl (s : State) (m : Memory) : (s.setMem m).fl = s.fl := rfl
@[simp] theorem setMem_pc (s : State) (m : Memory) : (s.setMem m).pc = s.pc := rfl
@[simp] theorem setMem_status (s : State) (m : Memory) : (s.setMem m).status = s.status := rfl
@[simp] theorem setMem_out (s : State) (m : Memory) : (s.setMem m).out = s.out := rfl

@[simp] theorem setFl_reg (s : State) (f : Byte) (i : RegIdx) : (s.setFl f).reg i = s.reg i := rfl
@[simp] theorem setFl_mem (s : State) (f : Byte) : (s.setFl f).mem = s.mem := rfl
@[simp] theorem setFl_fl (s : State) (f : Byte) : (s.setFl f).fl = f := rfl
@[simp] theorem setFl_pc (s : State) (f : Byte) : (s.setFl f).pc = s.pc := rfl
@[simp] theorem setFl_status (s : State) (f : Byte) : (s.setFl f).status = s.status := rfl
@[simp] theorem setFl_out (s : State) (f : Byte) : (s.setFl f).out = s.out := rfl

@[simp] theorem setStatus_reg (s : State) (x : Status) (i : RegIdx) : (s.setStatus x).reg i = s.reg i := rfl
@[simp] theorem setStatus_mem (s : State) (x : Status) : (s.setStatus x).mem = s.mem := rfl
@[simp] theorem setStatus_fl (s : State) (x : Status) : (s.setStatus x).fl = s.fl := rfl
@[simp] theorem setStatus_pc (s : State) (x : Status) : (s.setStatus x).pc = s.pc := rfl
@[simp] theorem setStatus_status (s : State) (x : Status) : (s.setStatus x).status = x := rfl
@[simp] theorem setStatus_out (s : State) (x : Status) : (s.setStatus x).out = s.out := rfl

/-! ## Program counter -/

@[simp] theorem jumpTo_pc (s : State) (t : Byte) : (s.jumpTo t).pc = t.setWidth 9 := rfl
@[simp] theorem jumpTo_reg (s : State) (t : Byte) (i : RegIdx) : (s.jumpTo t).reg i = s.reg i := rfl
@[simp] theorem jumpTo_mem (s : State) (t : Byte) : (s.jumpTo t).mem = s.mem := rfl
@[simp] theorem jumpTo_fl (s : State) (t : Byte) : (s.jumpTo t).fl = s.fl := rfl
@[simp] theorem jumpTo_status (s : State) (t : Byte) : (s.jumpTo t).status = s.status := rfl
@[simp] theorem jumpTo_out (s : State) (t : Byte) : (s.jumpTo t).out = s.out := rfl

@[simp] theorem advance_pc (s : State) (i : Instr) :
    (s.advance i).pc = s.pc + BitVec.ofNat 9 (1 + i.operandCount) := rfl
@[simp] theorem advance_reg (s : State) (i : Instr) (j : RegIdx) : (s.advance i).reg j = s.reg j := rfl
@[simp] theorem advance_mem (s : State) (i : Instr) : (s.advance i).mem = s.mem := rfl
@[simp] theorem advance_fl (s : State) (i : Instr) : (s.advance i).fl = s.fl := rfl
@[simp] theorem advance_status (s : State) (i : Instr) : (s.advance i).status = s.status := rfl
@[simp] theorem advance_out (s : State) (i : Instr) : (s.advance i).out = s.out := rfl

/-- The largest pc a jump can leave. -/
theorem jumpTo_pc_toNat (s : State) (t : Byte) : (s.jumpTo t).pc.toNat = t.toNat := by
  have := t.isLt
  simp only [jumpTo_pc, BitVec.toNat_setWidth]
  omega

theorem operandCount_le_two (i : Instr) : i.operandCount ≤ 2 := by cases i <;> simp [Instr.operandCount]

/-- From a pc inside memory the advance does not wrap around (spec/40_engine_cycle.md R71). -/
theorem advance_pc_toNat {s : State} (i : Instr) (h : s.pc.toNat ≤ 255) :
    (s.advance i).pc.toNat = s.pc.toNat + 1 + i.operandCount := by
  have := operandCount_le_two i
  simp only [advance_pc, BitVec.toNat_add, BitVec.toNat_ofNat]
  omega

/-! ## Output and faults -/

@[simp] theorem emit_out (s : State) (v : Byte) : (s.emit v).out = s.out ++ [v] := rfl
@[simp] theorem emit_reg (s : State) (v : Byte) (i : RegIdx) : (s.emit v).reg i = s.reg i := rfl
@[simp] theorem emit_mem (s : State) (v : Byte) : (s.emit v).mem = s.mem := rfl
@[simp] theorem emit_fl (s : State) (v : Byte) : (s.emit v).fl = s.fl := rfl
@[simp] theorem emit_pc (s : State) (v : Byte) : (s.emit v).pc = s.pc := rfl
@[simp] theorem emit_status (s : State) (v : Byte) : (s.emit v).status = s.status := rfl

@[simp] theorem takeFault_status (k : FaultKind) (op : Option Byte) (s : State) :
    (takeFault k op s).status = .faulted ⟨k, s.pc, op⟩ := rfl
@[simp] theorem takeFault_reg (k : FaultKind) (op : Option Byte) (s : State) (i : RegIdx) :
    (takeFault k op s).reg i = s.reg i := rfl
@[simp] theorem takeFault_mem (k : FaultKind) (op : Option Byte) (s : State) : (takeFault k op s).mem = s.mem := rfl
@[simp] theorem takeFault_fl (k : FaultKind) (op : Option Byte) (s : State) : (takeFault k op s).fl = s.fl := rfl
@[simp] theorem takeFault_pc (k : FaultKind) (op : Option Byte) (s : State) : (takeFault k op s).pc = s.pc := rfl
@[simp] theorem takeFault_out (k : FaultKind) (op : Option Byte) (s : State) : (takeFault k op s).out = s.out := rfl

end Sys2Proof.Machine
end

