-- ==== Sys2Proof/Laws/Ops.lean ====
section
/-! SUPPORT. One specification per shared operation: operands, stack, ALU shape, branch, fault. -/

namespace Sys2Proof.Machine

/-! ## Register operands -/

theorem checkReg_valid {r : Byte} {d : RegIdx} (h : r.toNat = d.val) : checkReg r = some d := by
  rw [checkReg, dif_pos (h ▸ d.isLt)]
  exact congrArg some (Fin.ext h)

theorem checkReg_invalid {r : Byte} (h : 7 < r.toNat) : checkReg r = none := dif_neg (by omega)

/-- A register operand names a register or is invalid. -/
theorem checkReg_cases (r : Byte) :
    (∃ d : RegIdx, r.toNat = d.val ∧ checkReg r = some d) ∨ (7 < r.toNat ∧ checkReg r = none) := by
  by_cases h : r.toNat < 8
  · exact .inl ⟨⟨r.toNat, h⟩, rfl, dif_pos h⟩
  · exact .inr ⟨by omega, dif_neg h⟩

theorem withReg_valid (i : Instr) {r : Byte} (s : State) (k : RegIdx → Result) {d : RegIdx} (h : r.toNat = d.val) :
    withReg i r s k = k d := by rw [withReg, checkReg_valid h]

theorem withReg_invalid (i : Instr) {r : Byte} (s : State) (k : RegIdx → Result) (h : 7 < r.toNat) :
    withReg i r s k = raise i .invalidRegister s := by rw [withReg, checkReg_invalid h]

theorem withRegs_valid (i : Instr) {ra rb : Byte} (s : State) (k : RegIdx → RegIdx → Result) {a b : RegIdx}
    (ha : ra.toNat = a.val) (hb : rb.toNat = b.val) : withRegs i ra rb s k = k a b := by
  rw [withRegs, withReg_valid i s _ ha, withReg_valid i s _ hb]

theorem withRegs_invalid (i : Instr) {ra rb : Byte} (s : State) (k : RegIdx → RegIdx → Result)
    (h : 7 < ra.toNat ∨ 7 < rb.toNat) : withRegs i ra rb s k = raise i .invalidRegister s := by
  rcases checkReg_cases ra with ⟨a, ha, -⟩ | ⟨ha, -⟩
  · rw [withRegs, withReg_valid i s _ ha, withReg_invalid i s _ (by omega)]
  · rw [withRegs, withReg_invalid i s _ ha]

/-- A register operand followed by something that always answers a next state answers one. -/
theorem withReg_next {i : Instr} {r : Byte} {s : State} {k : RegIdx → Result} (h : ∀ d, ∃ t, k d = .next t) :
    ∃ t, withReg i r s k = .next t := by
  rcases checkReg_cases r with ⟨d, hd, -⟩ | ⟨hr, -⟩
  · exact withReg_valid i s k hd ▸ h d
  · exact ⟨_, withReg_invalid i s k hr⟩

/-- Everything a register operand can lead to. -/
theorem withReg_cases {i : Instr} {r : Byte} {s : State} {k : RegIdx → Result} {x : Result}
    (h : withReg i r s k = x) :
    (∃ d : RegIdx, r.toNat = d.val ∧ k d = x) ∨ (7 < r.toNat ∧ raise i .invalidRegister s = x) := by
  rcases checkReg_cases r with ⟨d, hd, -⟩ | ⟨hr, -⟩
  · exact .inl ⟨d, hd, by rw [← h, withReg_valid i s k hd]⟩
  · exact .inr ⟨hr, by rw [← h, withReg_invalid i s k hr]⟩

/-- Everything a pair of register operands can lead to. -/
theorem withRegs_cases {i : Instr} {ra rb : Byte} {s : State} {k : RegIdx → RegIdx → Result} {x : Result}
    (h : withRegs i ra rb s k = x) :
    (∃ a b : RegIdx, ra.toNat = a.val ∧ rb.toNat = b.val ∧ k a b = x) ∨
    ((7 < ra.toNat ∨ 7 < rb.toNat) ∧ raise i .invalidRegister s = x) := by
  rcases checkReg_cases ra with ⟨a, ha, -⟩ | ⟨ha, -⟩
  · rcases checkReg_cases rb with ⟨b, hb, -⟩ | ⟨hb, -⟩
    · exact .inl ⟨a, b, ha, hb, by rw [← h, withRegs_valid i s k ha hb]⟩
    · exact .inr ⟨.inr hb, by rw [← h, withRegs_invalid i s k (.inr hb)]⟩
  · exact .inr ⟨.inl ha, by rw [← h, withRegs_invalid i s k (.inl ha)]⟩

/-! ## The stack -/

theorem pushAddr_eq_some {s : State} {a : Nat} : pushAddr s = some a ↔ a + 1 = (s.reg 7).toNat := by
  have h0 : s.reg 7 = 0 ↔ (s.reg 7).toNat = 0 := by simp [← BitVec.toNat_inj]
  rw [pushAddr, sp_eq]
  split
  · next h => simp only [reduceCtorEq, false_iff]; have := h0.1 h; omega
  · next h =>
    have := mt h0.2 h
    simp only [Option.some.injEq]
    omega

theorem pushAddr_eq_none {s : State} : pushAddr s = none ↔ s.reg 7 = 0 := by
  rw [pushAddr, sp_eq]
  split <;> simp_all

theorem popAddr_of_ne {s : State} (h : s.reg 7 ≠ 0xFF) : popAddr s = some (s.reg 7).toNat := by
  rw [popAddr, sp_eq, if_neg h]

theorem popAddr_of_eq {s : State} (h : s.reg 7 = 0xFF) : popAddr s = none := by rw [popAddr, sp_eq, if_pos h]

/-- Where a push writes and what it leaves. -/
theorem push_of_addr {s : State} {a : Nat} (v : Nat) (h : pushAddr s = some a) :
    push v s = some ((s.setReg 7 a).setMem (s.mem.write a (trunc8 v))) := by
  have hlt := (s.reg 7).isLt
  have ha : a ≤ 255 := by have := pushAddr_eq_some.1 h; omega
  rw [push, h]
  simp only [memWrite_inside s.mem v ha, setSp_eq]

theorem push_of_zero {s : State} (v : Nat) (h : s.reg 7 = 0) : push v s = none := by
  rw [push, pushAddr_eq_none.2 h]

/-- What a pop reads and leaves. -/
theorem pop_of_ne {s : State} (h : s.reg 7 ≠ 0xFF) :
    pop s = some (s.mem.read (s.reg 7).toNat, s.setReg 7 ((s.reg 7).toNat + 1)) := by
  have hlt := (s.reg 7).isLt
  rw [pop, popAddr_of_ne h]
  simp only [memRead_inside s.mem (show (s.reg 7).toNat ≤ 255 by omega), setSp_eq]

theorem pop_of_eq {s : State} (h : s.reg 7 = 0xFF) : pop s = none := by rw [pop, popAddr_of_eq h]

/-- Everything a push can do. -/
theorem push_cases (v : Nat) (s : State) :
    (∃ a, pushAddr s = some a ∧ a + 1 = (s.reg 7).toNat ∧
      push v s = some ((s.setReg 7 a).setMem (s.mem.write a (trunc8 v)))) ∨
    (s.reg 7 = 0 ∧ push v s = none) := by
  rcases h : pushAddr s with _ | a
  · exact .inr ⟨pushAddr_eq_none.1 h, push_of_zero v (pushAddr_eq_none.1 h)⟩
  · exact .inl ⟨a, rfl, pushAddr_eq_some.1 h, push_of_addr v h⟩

/-- Everything a pop can do. -/
theorem pop_cases (s : State) :
    (s.reg 7 ≠ 0xFF ∧ pop s = some (s.mem.read (s.reg 7).toNat, s.setReg 7 ((s.reg 7).toNat + 1))) ∨
    (s.reg 7 = 0xFF ∧ pop s = none) := by
  by_cases h : s.reg 7 = 0xFF
  · exact .inr ⟨h, pop_of_eq h⟩
  · exact .inl ⟨h, pop_of_ne h⟩

/-! ## Branches, faults, the ALU -/

theorem branchIf_taken (i : Instr) (r : Byte) (s : State) :
    branchIf true i r s = withReg i r s fun d => .next (s.jumpTo (s.reg d)) := rfl

theorem branchIf_not_taken (i : Instr) (r : Byte) (s : State) : branchIf false i r s = .next (s.advance i) := rfl

theorem raise_eq (i : Instr) (k : FaultKind) (s : State) : raise i k s = .next (takeFault k (some i.opcode) s) := rfl

theorem execAlu_next (op : AluOp) (i : Instr) (ra rb : Byte) (s : State) : ∃ t, execAlu op i ra rb s = .next t :=
  withReg_next fun a => withReg_next fun b => by
    beta_reduce
    cases aluApply op (s.reg a) (s.reg b) <;> exact ⟨_, rfl⟩

theorem branchIf_next (c : Bool) (i : Instr) (r : Byte) (s : State) : ∃ t, branchIf c i r s = .next t := by
  cases c with
  | false => exact ⟨_, rfl⟩
  | true => exact withReg_next fun d => ⟨_, rfl⟩

theorem legal_compareFlags (a b : Byte) :
    compareFlags a b = 0x01 ∨ compareFlags a b = 0x02 ∨ compareFlags a b = 0x04 := by
  unfold compareFlags
  split
  · simp
  · split <;> simp

end Sys2Proof.Machine
end

