-- ==== Sys2Proof/Laws/Exec.lean ====
section
/-! SUPPORT. What each instruction can do, said once: if its meaning answers `t`, then one of the cases listed holds. -/

namespace Sys2Proof.Machine

theorem next_inj {s t : State} (h : (Host.Outcome.next s : Result) = .next t) : t = s :=
  (Host.Outcome.next.inj h).symm

theorem raise_next {i : Instr} {k : FaultKind} {s t : State} (h : raise i k s = .next t) :
    t = takeFault k (some i.opcode) s := next_inj h

theorem execLdi_cases {r imm : Byte} {s t : State} (h : execLdi r imm s = .next t) :
    (∃ d : RegIdx, r.toNat = d.val ∧ t = (s.setReg d imm.toNat).advance (.ldi r imm)) ∨
    (7 < r.toNat ∧ t = takeFault .invalidRegister (some 0x82) s) := by
  rcases withReg_cases h with ⟨d, hd, h⟩ | ⟨hr, h⟩
  · exact .inl ⟨d, hd, next_inj h⟩
  · exact .inr ⟨hr, raise_next h⟩

theorem execPrn_cases {r : Byte} {s t : State} (h : execPrn r s = .next t) :
    (∃ d : RegIdx, r.toNat = d.val ∧ t = (s.emit (s.reg d)).advance (.prn r)) ∨
    (7 < r.toNat ∧ t = takeFault .invalidRegister (some 0x47) s) := by
  rcases withReg_cases h with ⟨d, hd, h⟩ | ⟨hr, h⟩
  · exact .inl ⟨d, hd, next_inj h⟩
  · exact .inr ⟨hr, raise_next h⟩

/-- Everything the shape the ALU instructions share can do. -/
theorem execAlu_cases {op : AluOp} {i : Instr} {ra rb : Byte} {s t : State} (h : execAlu op i ra rb s = .next t) :
    (∃ a b : RegIdx, ra.toNat = a.val ∧ rb.toNat = b.val ∧
      ((∃ v, aluApply op (s.reg a) (s.reg b) = .result v ∧ t = (s.setReg a v).advance i) ∨
       (∃ fl, aluApply op (s.reg a) (s.reg b) = .flags fl ∧ t = (s.setFl fl).advance i) ∨
       (∃ k, aluApply op (s.reg a) (s.reg b) = .fails k ∧ t = takeFault k (some i.opcode) s))) ∨
    ((7 < ra.toNat ∨ 7 < rb.toNat) ∧ t = takeFault .invalidRegister (some i.opcode) s) := by
  rcases withRegs_cases h with ⟨a, b, ha, hb, h⟩ | ⟨hr, h⟩
  · refine .inl ⟨a, b, ha, hb, ?_⟩
    rcases hv : aluApply op (s.reg a) (s.reg b) with v | fl | k <;> rw [hv] at h
    · exact .inl ⟨v, rfl, next_inj h⟩
    · exact .inr (.inl ⟨fl, rfl, next_inj h⟩)
    · exact .inr (.inr ⟨k, rfl, raise_next h⟩)
  · exact .inr ⟨hr, raise_next h⟩

theorem execAdd_cases {ra rb : Byte} {s t : State} (h : execAdd ra rb s = .next t) :
    (∃ a b : RegIdx, ra.toNat = a.val ∧ rb.toNat = b.val ∧
      t = (s.setReg a (((s.reg a).toNat + (s.reg b).toNat) % 256)).advance (.add ra rb)) ∨
    ((7 < ra.toNat ∨ 7 < rb.toNat) ∧ t = takeFault .invalidRegister (some 0xA0) s) := by
  rcases execAlu_cases h with ⟨a, b, ha, hb, ⟨v, hv, ht⟩ | ⟨fl, hv, -⟩ | ⟨k, hv, -⟩⟩ | h
  · cases hv; exact .inl ⟨a, b, ha, hb, ht⟩
  · cases hv
  · cases hv
  · exact .inr h

theorem execMul_cases {ra rb : Byte} {s t : State} (h : execMul ra rb s = .next t) :
    (∃ a b : RegIdx, ra.toNat = a.val ∧ rb.toNat = b.val ∧
      t = (s.setReg a (((s.reg a).toNat * (s.reg b).toNat) % 256)).advance (.mul ra rb)) ∨
    ((7 < ra.toNat ∨ 7 < rb.toNat) ∧ t = takeFault .invalidRegister (some 0xA2) s) := by
  rcases execAlu_cases h with ⟨a, b, ha, hb, ⟨v, hv, ht⟩ | ⟨fl, hv, -⟩ | ⟨k, hv, -⟩⟩ | h
  · cases hv; exact .inl ⟨a, b, ha, hb, ht⟩
  · cases hv
  · cases hv
  · exact .inr h

theorem aluApply_div (a b : Byte) :
    aluApply .div a b = if b.toNat = 0 then .fails .divideByZero else .result (a.toNat / b.toNat) := rfl

theorem execDiv_cases {ra rb : Byte} {s t : State} (h : execDiv ra rb s = .next t) :
    (∃ a b : RegIdx, ra.toNat = a.val ∧ rb.toNat = b.val ∧ s.reg b ≠ 0 ∧
      t = (s.setReg a ((s.reg a).toNat / (s.reg b).toNat)).advance (.div ra rb)) ∨
    (∃ a b : RegIdx, ra.toNat = a.val ∧ rb.toNat = b.val ∧ s.reg b = 0 ∧
      t = takeFault .divideByZero (some 0xA3) s) ∨
    ((7 < ra.toNat ∨ 7 < rb.toNat) ∧ t = takeFault .invalidRegister (some 0xA3) s) := by
  rcases execAlu_cases h with ⟨a, b, ha, hb, h⟩ | h
  · have h0 : s.reg b = 0 ↔ (s.reg b).toNat = 0 := by simp [← BitVec.toNat_inj]
    rw [aluApply_div] at h
    by_cases hz : (s.reg b).toNat = 0
    · rw [if_pos hz] at h
      rcases h with ⟨v, hv, -⟩ | ⟨fl, hv, -⟩ | ⟨k, hv, ht⟩
      · cases hv
      · cases hv
      · cases hv; exact .inr (.inl ⟨a, b, ha, hb, h0.2 hz, ht⟩)
    · rw [if_neg hz] at h
      rcases h with ⟨v, hv, ht⟩ | ⟨fl, hv, -⟩ | ⟨k, hv, -⟩
      · cases hv; exact .inl ⟨a, b, ha, hb, mt h0.1 hz, ht⟩
      · cases hv
      · cases hv
  · exact .inr (.inr h)

theorem execCmp_cases {ra rb : Byte} {s t : State} (h : execCmp ra rb s = .next t) :
    (∃ a b : RegIdx, ra.toNat = a.val ∧ rb.toNat = b.val ∧
      t = (s.setFl (compareFlags (s.reg a) (s.reg b))).advance (.cmp ra rb)) ∨
    ((7 < ra.toNat ∨ 7 < rb.toNat) ∧ t = takeFault .invalidRegister (some 0xA7) s) := by
  rcases execAlu_cases h with ⟨a, b, ha, hb, ⟨v, hv, -⟩ | ⟨fl, hv, ht⟩ | ⟨k, hv, -⟩⟩ | h
  · cases hv
  · cases hv; exact .inl ⟨a, b, ha, hb, ht⟩
  · cases hv
  · exact .inr h

theorem execPush_cases {r : Byte} {s t : State} (h : execPush r s = .next t) :
    (∃ (d : RegIdx) (a : Nat), r.toNat = d.val ∧ pushAddr s = some a ∧ a + 1 = (s.reg 7).toNat ∧
      t = ((s.setReg 7 a).setMem (s.mem.write a (s.reg d))).advance (.push r)) ∨
    (r.toNat ≤ 7 ∧ s.reg 7 = 0 ∧ t = takeFault .outOfBounds (some 0x45) s) ∨
    (7 < r.toNat ∧ t = takeFault .invalidRegister (some 0x45) s) := by
  rcases withReg_cases h with ⟨d, hd, h⟩ | ⟨hr, h⟩
  · rcases push_cases (s.reg d).toNat s with ⟨a, ha, ha', hp⟩ | ⟨h0, hp⟩ <;> rw [hp] at h
    · exact .inl ⟨d, a, hd, ha, ha', by rw [trunc8_toNat] at h; exact next_inj h⟩
    · exact .inr (.inl ⟨by omega, h0, raise_next h⟩)
  · exact .inr (.inr ⟨hr, raise_next h⟩)

theorem execPop_cases {r : Byte} {s t : State} (h : execPop r s = .next t) :
    (∃ d : RegIdx, r.toNat = d.val ∧ s.reg 7 ≠ 0xFF ∧
      t = ((s.setReg 7 ((s.reg 7).toNat + 1)).setReg d (s.mem.read (s.reg 7).toNat).toNat).advance (.pop r)) ∨
    (r.toNat ≤ 7 ∧ s.reg 7 = 0xFF ∧ t = takeFault .outOfBounds (some 0x46) s) ∨
    (7 < r.toNat ∧ t = takeFault .invalidRegister (some 0x46) s) := by
  rcases withReg_cases h with ⟨d, hd, h⟩ | ⟨hr, h⟩
  · rcases pop_cases s with ⟨hn, hp⟩ | ⟨h0, hp⟩ <;> rw [hp] at h
    · exact .inl ⟨d, hd, hn, next_inj h⟩
    · exact .inr (.inl ⟨by omega, h0, raise_next h⟩)
  · exact .inr (.inr ⟨hr, raise_next h⟩)

theorem execCall_cases {r : Byte} {s t : State} (h : execCall r s = .next t) :
    (∃ (d : RegIdx) (a : Nat), r.toNat = d.val ∧ pushAddr s = some a ∧ a + 1 = (s.reg 7).toNat ∧
      t = ((s.setReg 7 a).setMem (s.mem.write a (trunc8 (s.pc.toNat + 2)))).jumpTo (s.reg d)) ∨
    (r.toNat ≤ 7 ∧ s.reg 7 = 0 ∧ t = takeFault .outOfBounds (some 0x50) s) ∨
    (7 < r.toNat ∧ t = takeFault .invalidRegister (some 0x50) s) := by
  rcases withReg_cases h with ⟨d, hd, h⟩ | ⟨hr, h⟩
  · rcases push_cases (s.pc.toNat + 2) s with ⟨a, ha, ha', hp⟩ | ⟨h0, hp⟩ <;> rw [hp] at h
    · exact .inl ⟨d, a, hd, ha, ha', next_inj h⟩
    · exact .inr (.inl ⟨by omega, h0, raise_next h⟩)
  · exact .inr (.inr ⟨hr, raise_next h⟩)

theorem execRet_cases {s t : State} (h : execRet s = .next t) :
    (s.reg 7 ≠ 0xFF ∧
      t = (s.setReg 7 ((s.reg 7).toNat + 1)).jumpTo (s.mem.read (s.reg 7).toNat)) ∨
    (s.reg 7 = 0xFF ∧ t = takeFault .outOfBounds (some 0x11) s) := by
  unfold execRet at h
  rcases pop_cases s with ⟨hn, hp⟩ | ⟨h0, hp⟩ <;> rw [hp] at h
  · exact .inl ⟨hn, next_inj h⟩
  · exact .inr ⟨h0, raise_next h⟩

theorem execJmp_cases {r : Byte} {s t : State} (h : execJmp r s = .next t) :
    (∃ d : RegIdx, r.toNat = d.val ∧ t = s.jumpTo (s.reg d)) ∨
    (7 < r.toNat ∧ t = takeFault .invalidRegister (some 0x54) s) := by
  rcases withReg_cases h with ⟨d, hd, h⟩ | ⟨hr, h⟩
  · exact .inl ⟨d, hd, next_inj h⟩
  · exact .inr ⟨hr, raise_next h⟩

/-- Everything a conditional branch can do. -/
theorem branchIf_cases {c : Bool} {i : Instr} {r : Byte} {s t : State} (h : branchIf c i r s = .next t) :
    (∃ d : RegIdx, c = true ∧ r.toNat = d.val ∧ t = s.jumpTo (s.reg d)) ∨
    (c = false ∧ t = s.advance i) ∨
    (c = true ∧ 7 < r.toNat ∧ t = takeFault .invalidRegister (some i.opcode) s) := by
  cases c with
  | false => exact .inr (.inl ⟨rfl, next_inj h⟩)
  | true =>
    rcases withReg_cases h with ⟨d, hd, h⟩ | ⟨hr, h⟩
    · exact .inl ⟨d, rfl, hd, next_inj h⟩
    · exact .inr (.inr ⟨rfl, hr, raise_next h⟩)

theorem execJeq_cases {r : Byte} {s t : State} (h : execJeq r s = .next t) :
    (∃ d : RegIdx, s.fl.getLsbD 0 = true ∧ r.toNat = d.val ∧ t = s.jumpTo (s.reg d)) ∨
    (s.fl.getLsbD 0 = false ∧ t = s.advance (.jeq r)) ∨
    (s.fl.getLsbD 0 = true ∧ 7 < r.toNat ∧ t = takeFault .invalidRegister (some 0x55) s) :=
  branchIf_cases h

theorem execJne_cases {r : Byte} {s t : State} (h : execJne r s = .next t) :
    (∃ d : RegIdx, s.fl.getLsbD 0 = false ∧ r.toNat = d.val ∧ t = s.jumpTo (s.reg d)) ∨
    (s.fl.getLsbD 0 = true ∧ t = s.advance (.jne r)) ∨
    (s.fl.getLsbD 0 = false ∧ 7 < r.toNat ∧ t = takeFault .invalidRegister (some 0x56) s) := by
  rcases branchIf_cases h with ⟨d, hc, h⟩ | ⟨hc, h⟩ | ⟨hc, h⟩
  · exact .inl ⟨d, by simpa [equalFlag] using hc, h⟩
  · exact .inr (.inl ⟨by simpa [equalFlag] using hc, h⟩)
  · exact .inr (.inr ⟨by simpa [equalFlag] using hc, h⟩)

/-! ## The kinds of change, over all instructions

Four shapes cover every instruction: a fault; an effect on registers, FL, PC and output that leaves memory and status
alone; a store; a halt. -/

/-- Everything an instruction can do, by kind: it takes a fault; or it halts; or it goes on, with memory, status and pc
as described. -/
theorem exec_kinds {i : Instr} {s t : State} (h : exec i s = .next t) :
    (∃ k, t = takeFault k (some i.opcode) s ∧
      (k = .invalidRegister ∨ k = .divideByZero ∨ k = .outOfBounds)) ∨
    (i = .hlt ∧ t = (s.setStatus .halted).advance .hlt) ∨
    (i ≠ .hlt ∧ t.status = s.status ∧
      (t.mem = s.mem ∨ ∃ a v, a ≤ 255 ∧ t.mem = s.mem.write a v) ∧
      ((∃ b : Byte, t.pc = b.setWidth 9) ∨ t.pc = s.pc + BitVec.ofNat 9 (1 + i.operandCount)) ∧
      (t.fl = s.fl ∨ ∃ a b, t.fl = compareFlags a b)) := by
  have hlt (j : RegIdx) := (s.reg j).isLt
  cases i with
  | hlt => exact .inr (.inl ⟨rfl, next_inj h⟩)
  | ldi r imm =>
    rcases execLdi_cases h with ⟨d, -, rfl⟩ | ⟨-, rfl⟩
    · exact .inr (.inr ⟨by simp, rfl, .inl rfl, .inr rfl, .inl rfl⟩)
    · exact .inl ⟨_, rfl, by simp⟩
  | prn r =>
    rcases execPrn_cases h with ⟨d, -, rfl⟩ | ⟨-, rfl⟩
    · exact .inr (.inr ⟨by simp, rfl, .inl rfl, .inr rfl, .inl rfl⟩)
    · exact .inl ⟨_, rfl, by simp⟩
  | add ra rb =>
    rcases execAdd_cases h with ⟨a, b, -, -, rfl⟩ | ⟨-, rfl⟩
    · exact .inr (.inr ⟨by simp, rfl, .inl rfl, .inr rfl, .inl rfl⟩)
    · exact .inl ⟨_, rfl, by simp⟩
  | mul ra rb =>
    rcases execMul_cases h with ⟨a, b, -, -, rfl⟩ | ⟨-, rfl⟩
    · exact .inr (.inr ⟨by simp, rfl, .inl rfl, .inr rfl, .inl rfl⟩)
    · exact .inl ⟨_, rfl, by simp⟩
  | div ra rb =>
    rcases execDiv_cases h with ⟨a, b, -, -, -, rfl⟩ | ⟨a, b, -, -, -, rfl⟩ | ⟨-, rfl⟩
    · exact .inr (.inr ⟨by simp, rfl, .inl rfl, .inr rfl, .inl rfl⟩)
    · exact .inl ⟨_, rfl, by simp⟩
    · exact .inl ⟨_, rfl, by simp⟩
  | cmp ra rb =>
    rcases execCmp_cases h with ⟨a, b, -, -, rfl⟩ | ⟨-, rfl⟩
    · exact .inr (.inr ⟨by simp, rfl, .inl rfl, .inr rfl, .inr ⟨_, _, rfl⟩⟩)
    · exact .inl ⟨_, rfl, by simp⟩
  | push r =>
    rcases execPush_cases h with ⟨d, a, -, -, ha, rfl⟩ | ⟨-, -, rfl⟩ | ⟨-, rfl⟩
    · exact .inr (.inr ⟨by simp, rfl, .inr ⟨a, _, by have := hlt 7; omega, rfl⟩, .inr rfl, .inl rfl⟩)
    · exact .inl ⟨_, rfl, by simp⟩
    · exact .inl ⟨_, rfl, by simp⟩
  | pop r =>
    rcases execPop_cases h with ⟨d, -, -, rfl⟩ | ⟨-, -, rfl⟩ | ⟨-, rfl⟩
    · exact .inr (.inr ⟨by simp, rfl, .inl rfl, .inr rfl, .inl rfl⟩)
    · exact .inl ⟨_, rfl, by simp⟩
    · exact .inl ⟨_, rfl, by simp⟩
  | call r =>
    rcases execCall_cases h with ⟨d, a, -, -, ha, rfl⟩ | ⟨-, -, rfl⟩ | ⟨-, rfl⟩
    · exact .inr (.inr ⟨by simp, rfl, .inr ⟨a, _, by have := hlt 7; omega, rfl⟩, .inl ⟨_, rfl⟩, .inl rfl⟩)
    · exact .inl ⟨_, rfl, by simp⟩
    · exact .inl ⟨_, rfl, by simp⟩
  | ret =>
    rcases execRet_cases h with ⟨-, rfl⟩ | ⟨-, rfl⟩
    · exact .inr (.inr ⟨by simp, rfl, .inl rfl, .inl ⟨_, rfl⟩, .inl rfl⟩)
    · exact .inl ⟨_, rfl, by simp⟩
  | jmp r =>
    rcases execJmp_cases h with ⟨d, -, rfl⟩ | ⟨-, rfl⟩
    · exact .inr (.inr ⟨by simp, rfl, .inl rfl, .inl ⟨_, rfl⟩, .inl rfl⟩)
    · exact .inl ⟨_, rfl, by simp⟩
  | jeq r =>
    rcases execJeq_cases h with ⟨d, -, -, rfl⟩ | ⟨-, rfl⟩ | ⟨-, -, rfl⟩
    · exact .inr (.inr ⟨by simp, rfl, .inl rfl, .inl ⟨_, rfl⟩, .inl rfl⟩)
    · exact .inr (.inr ⟨by simp, rfl, .inl rfl, .inr rfl, .inl rfl⟩)
    · exact .inl ⟨_, rfl, by simp⟩
  | jne r =>
    rcases execJne_cases h with ⟨d, -, -, rfl⟩ | ⟨-, rfl⟩ | ⟨-, -, rfl⟩
    · exact .inr (.inr ⟨by simp, rfl, .inl rfl, .inl ⟨_, rfl⟩, .inl rfl⟩)
    · exact .inr (.inr ⟨by simp, rfl, .inl rfl, .inr rfl, .inl rfl⟩)
    · exact .inl ⟨_, rfl, by simp⟩

end Sys2Proof.Machine
end

