-- ==== Sys2Proof/Laws/PerInstr.lean ====
section
/-! SUPPORT. Facts proved one instruction at a time. EncodeShape: the bytes of an instruction are as many as its table row
declares, and bits 7:6 of its opcode say the same (spec/30_encoding.md R51, R55). -/

namespace Sys2Proof.Laws.EncodeShape

def Statement (i : Instr) : Prop :=
  (encode i).length = 1 + i.operandCount ∧ (i.opcode >>> 6).toNat = i.operandCount

theorem hlt : Statement .hlt := by
  simp [Statement, encode, Instr.operandBytes, Instr.operandCount, Instr.opcode]
theorem ldi (r imm : Byte) : Statement (.ldi r imm) := by
  simp [Statement, encode, Instr.operandBytes, Instr.operandCount, Instr.opcode]
theorem prn (r : Byte) : Statement (.prn r) := by
  simp [Statement, encode, Instr.operandBytes, Instr.operandCount, Instr.opcode]
theorem add (ra rb : Byte) : Statement (.add ra rb) := by
  simp [Statement, encode, Instr.operandBytes, Instr.operandCount, Instr.opcode]
theorem mul (ra rb : Byte) : Statement (.mul ra rb) := by
  simp [Statement, encode, Instr.operandBytes, Instr.operandCount, Instr.opcode]
theorem div (ra rb : Byte) : Statement (.div ra rb) := by
  simp [Statement, encode, Instr.operandBytes, Instr.operandCount, Instr.opcode]
theorem cmp (ra rb : Byte) : Statement (.cmp ra rb) := by
  simp [Statement, encode, Instr.operandBytes, Instr.operandCount, Instr.opcode]
theorem push (r : Byte) : Statement (.push r) := by
  simp [Statement, encode, Instr.operandBytes, Instr.operandCount, Instr.opcode]
theorem pop (r : Byte) : Statement (.pop r) := by
  simp [Statement, encode, Instr.operandBytes, Instr.operandCount, Instr.opcode]
theorem call (r : Byte) : Statement (.call r) := by
  simp [Statement, encode, Instr.operandBytes, Instr.operandCount, Instr.opcode]
theorem ret : Statement .ret := by
  simp [Statement, encode, Instr.operandBytes, Instr.operandCount, Instr.opcode]
theorem jmp (r : Byte) : Statement (.jmp r) := by
  simp [Statement, encode, Instr.operandBytes, Instr.operandCount, Instr.opcode]
theorem jeq (r : Byte) : Statement (.jeq r) := by
  simp [Statement, encode, Instr.operandBytes, Instr.operandCount, Instr.opcode]
theorem jne (r : Byte) : Statement (.jne r) := by
  simp [Statement, encode, Instr.operandBytes, Instr.operandCount, Instr.opcode]

end Sys2Proof.Laws.EncodeShape
end

