-- ==== Sys2Proof/Laws/Step.lean ====
section
/-! SUPPORT. What a fetch and a step can do. -/

namespace Sys2Proof.Machine

/-- The fetch window of a pc from which three bytes exist; nearer the end of memory it is shorter. -/
theorem fetchWindow_eq (s : State) :
    fetchWindow s =
      if 255 < s.pc.toNat then []
      else if 255 < s.pc.toNat + 1 then [s.mem.read s.pc.toNat]
      else if 255 < s.pc.toNat + 2 then [s.mem.read s.pc.toNat, s.mem.read (s.pc.toNat + 1)]
      else [s.mem.read s.pc.toNat, s.mem.read (s.pc.toNat + 1), s.mem.read (s.pc.toNat + 2)] := by
  unfold fetchWindow
  split
  · simp [memRead_outside, *, show 255 < s.pc.toNat + 1 by omega, show 255 < s.pc.toNat + 2 by omega]
  · split
    · simp [memRead_outside, memRead_inside, *, show s.pc.toNat ≤ 255 by omega,
        show 255 < s.pc.toNat + 2 by omega]
    · split
      · simp [memRead_outside, memRead_inside, *, show s.pc.toNat ≤ 255 by omega,
          show s.pc.toNat + 1 ≤ 255 by omega]
      · simp [memRead_inside, show s.pc.toNat ≤ 255 by omega, show s.pc.toNat + 1 ≤ 255 by omega,
          show s.pc.toNat + 2 ≤ 255 by omega]

/-- From a pc inside memory the window begins with the byte at pc. -/
theorem fetchWindow_cons {s : State} (h : s.pc.toNat ≤ 255) :
    ∃ rest, fetchWindow s = s.mem.read s.pc.toNat :: rest ∧ rest.length = min 2 (255 - s.pc.toNat) := by
  rw [fetchWindow_eq, if_neg (by omega)]
  split
  · exact ⟨_, rfl, by simp; omega⟩
  · split
    · exact ⟨_, rfl, by simp; omega⟩
    · exact ⟨_, rfl, by simp; omega⟩

/-- A step while Running is the instruction fetched, or the fault its fetch raises. -/
theorem step_running {s : State} (h : s.status = .running) :
    step s = match fetch s with
      | .ok i => exec i s
      | .error (kind, op) => .next (takeFault kind op s) := by
  simp only [step, h] <;> rfl

/-- Everything a step that answers a next state can have been. -/
theorem step_cases {s t : State} (h : step s = .next t) :
    s.status = .running ∧
      ((∃ i, fetch s = .ok i ∧ exec i s = .next t) ∨
       (∃ kind op, fetch s = .error (kind, op) ∧ t = takeFault kind op s)) := by
  rcases hs : s.status with _ | _ | r
  · refine ⟨rfl, ?_⟩
    rw [step_running hs] at h
    rcases hf : fetch s with ⟨kind, op⟩ | i <;> rw [hf] at h
    · exact .inr ⟨kind, op, rfl, next_inj h⟩
    · exact .inl ⟨i, rfl, h⟩
  · rw [step, hs] at h; cases h
  · rw [step, hs] at h; cases h

/-- A successful fetch decodes the bytes at pc. -/
theorem fetch_ok {s : State} {i : Instr} : fetch s = .ok i ↔ ∃ rest, decode (fetchWindow s) = .ok (i, rest) := by
  unfold fetch
  rcases decode (fetchWindow s) with (_ | _ | _) | ⟨j, rest⟩ <;> simp

/-- A fetch that succeeded read the instruction's opcode at pc and its operand bytes after it, all inside memory. -/
theorem fetch_ok_bytes {s : State} {i : Instr} (h : fetch s = .ok i) :
    s.pc.toNat + i.operandCount ≤ 255 ∧ s.mem.read s.pc.toNat = i.opcode ∧
      i.operandBytes = (List.range i.operandCount).map fun k => s.mem.read (s.pc.toNat + 1 + k) := by
  obtain ⟨rest, h⟩ := fetch_ok.1 h
  obtain ⟨op, e, hl, hc⟩ := decode_ok h
  have hb := lookup_buildsOnly hl
  rw [fetchWindow_eq] at hc
  rw [← length_operandBytes]
  rcases hc with ⟨rfl, hw⟩ | ⟨build, b, rfl, rfl, hw⟩ | ⟨build, b, c, rfl, rfl, hw⟩
  · obtain ⟨ho, hn⟩ := hb
    repeat' split at hw
    all_goals simp_all
  · obtain ⟨ho, hn⟩ := hb b
    repeat' split at hw
    all_goals simp_all
  · obtain ⟨ho, hn⟩ := hb b c
    repeat' split at hw
    all_goals simp_all [List.range_succ]

/-- A fetch that failed: the pc is beyond memory, or the byte at pc is not an opcode, or an operand byte would be
beyond memory; the record's opcode byte is the byte at pc, absent in the first case. -/
theorem fetch_error {s : State} {kind : FaultKind} {op : Option Byte} (h : fetch s = .error (kind, op)) :
    (255 < s.pc.toNat ∧ kind = .outOfBounds ∧ op = none) ∨
    (s.pc.toNat ≤ 255 ∧ kind = .illegalInstruction ∧ op = some (s.mem.read s.pc.toNat) ∧
      lookup (s.mem.read s.pc.toNat) = none) ∨
    (s.pc.toNat ≤ 255 ∧ kind = .outOfBounds ∧ op = some (s.mem.read s.pc.toNat) ∧
      ∃ e, lookup (s.mem.read s.pc.toNat) = some e ∧ 255 < s.pc.toNat + e.operands) := by
  unfold fetch at h
  rw [fetchWindow_eq] at h
  by_cases h0 : 255 < s.pc.toNat
  · rw [if_pos h0, decode_nil] at h
    cases h
    exact .inl ⟨h0, rfl, rfl⟩
  rw [if_neg h0] at h
  refine .inr ?_
  rcases hl : lookup (s.mem.read s.pc.toNat) with _ | e
  · refine .inl ⟨by omega, ?_⟩
    split at h <;> rename_i hw <;> (try split at hw) <;> (try split at hw) <;>
      rw [decode_illegal _ hl] at hw <;> cases hw <;> cases h <;> simp
  · refine .inr ⟨by omega, ?_⟩
    by_cases h1 : 255 < s.pc.toNat + 1
    · rw [if_pos h1] at h
      rcases e with i | build | build
      · simp [decode, hl] at h
      · rw [decode_short hl (by simp [OpcodeEntry.operands])] at h
        cases h
        exact ⟨rfl, rfl, _, rfl, h1⟩
      · rw [decode_short hl (by simp [OpcodeEntry.operands])] at h
        cases h
        exact ⟨rfl, rfl, _, rfl, by simp only [OpcodeEntry.operands]; omega⟩
    · rw [if_neg h1] at h
      by_cases h2 : 255 < s.pc.toNat + 2
      · rw [if_pos h2] at h
        rcases e with i | build | build
        · simp [decode, hl] at h
        · simp [decode, hl] at h
        · rw [decode_short hl (by simp [OpcodeEntry.operands])] at h
          cases h
          exact ⟨rfl, rfl, _, rfl, h2⟩
      · rw [if_neg h2] at h
        rcases e with i | build | build <;> simp [decode, hl] at h

end Sys2Proof.Machine
end

