-- ==== Sys2Proof/Laws/Safety.lean ====
section
/-! SUPPORT. Laws of the terms the claims use. -/

namespace Sys2Proof.Machine

theorem KeepsRegsBut.refl (ds : List RegIdx) (s : State) : KeepsRegsBut ds s s := fun _ _ => rfl

theorem KeepsMem.refl (s : State) : KeepsMem s s := fun _ => rfl

theorem keepsRegsBut_setReg (s : State) (d : RegIdx) (v : Nat) : KeepsRegsBut [d] s (s.setReg d v) := fun _ hj =>
  reg_setReg_ne s v fun h => hj (h ▸ List.mem_cons_self)

/-- The opcode table and the list of legal opcode bytes hold the same bytes; all 256 values are compared. -/
theorem lookup_eq_none_iff (op : Byte) : lookup op = none ↔ op ∉ legalOpcodes := by
  revert op
  decide

/-- A faulted state is no other state: which record it carries. -/
theorem faulted_of_takeFault {k : FaultKind} {op : Option Byte} {s : State} {r : FaultRecord}
    (h : (takeFault k op s).status = .faulted r) : r = ⟨k, s.pc, op⟩ := (Status.faulted.inj h).symm

/-- With a running start, a state that an instruction leaves Faulted is the fault it took. -/
theorem exec_faulted {i : Instr} {s t : State} {r : FaultRecord} (hs : s.status = .running) (h : exec i s = .next t)
    (hr : t.status = .faulted r) :
    t = takeFault r.kind (some i.opcode) s ∧ r = ⟨r.kind, s.pc, some i.opcode⟩ ∧
      (r.kind = .invalidRegister ∨ r.kind = .divideByZero ∨ r.kind = .outOfBounds) := by
  rcases exec_kinds h with ⟨k, rfl, hk⟩ | ⟨-, rfl⟩ | ⟨-, h', -⟩
  · obtain rfl := faulted_of_takeFault hr
    exact ⟨rfl, rfl, hk⟩
  · cases hr
  · rw [h', hs] at hr; cases hr

end Sys2Proof.Machine
end

