-- ==== Sys2Proof/Tests/Slice0.lean ====
section
/-! SUPPORT. Tests: what WellFormed refuses, words written out from spec/30_encoding.md R53, single steps whose expected
results are the vectors of spec/95_test_vectors.md (named in each comment), and for every statement with hypotheses a
witness that meets them. -/

namespace Sys2Proof.Tests

open Sys2Proof Sys2Proof.Machine

/-! ## WellFormed refuses an invalid register operand in every operand position -/

theorem test_wf_accepts : (Instr.add 0 7).WellFormed ∧ (Instr.ldi 7 0xFF).WellFormed ∧ Instr.ret.WellFormed := by decide
theorem test_wf_refuses_one_operand :
    ¬ (Instr.ldi 8 0).WellFormed ∧ ¬ (Instr.prn 8).WellFormed ∧ ¬ (Instr.push 0xFF).WellFormed ∧
    ¬ (Instr.pop 8).WellFormed ∧ ¬ (Instr.call 8).WellFormed ∧ ¬ (Instr.jmp 8).WellFormed ∧
    ¬ (Instr.jeq 8).WellFormed ∧ ¬ (Instr.jne 8).WellFormed := by decide
theorem test_wf_refuses_first_operand :
    ¬ (Instr.add 8 0).WellFormed ∧ ¬ (Instr.mul 8 0).WellFormed ∧ ¬ (Instr.div 8 0).WellFormed ∧
    ¬ (Instr.cmp 8 0).WellFormed := by decide
theorem test_wf_refuses_second_operand :
    ¬ (Instr.add 0 8).WellFormed ∧ ¬ (Instr.mul 0 8).WellFormed ∧ ¬ (Instr.div 0 8).WellFormed ∧
    ¬ (Instr.cmp 0 8).WellFormed := by decide

/-! ## Decoding words written out bit by bit from R53 -/

theorem test_decode_hlt : decode [0b00000001] = .ok (.hlt, []) := rfl
theorem test_decode_ldi : decode [0b10000010, 0b00000000, 0b00001000] = .ok (.ldi 0 8, []) := rfl
theorem test_decode_prn : decode [0b01000111, 0b00000010] = .ok (.prn 2, []) := rfl
theorem test_decode_add : decode [0b10100000, 0b00000001, 0b00000010] = .ok (.add 1 2, []) := rfl
theorem test_decode_mul : decode [0b10100010, 0b00000001, 0b00000010] = .ok (.mul 1 2, []) := rfl
theorem test_decode_div : decode [0b10100011, 0b00000001, 0b00000010] = .ok (.div 1 2, []) := rfl
theorem test_decode_cmp : decode [0b10100111, 0b00000001, 0b00000010] = .ok (.cmp 1 2, []) := rfl
theorem test_decode_push : decode [0b01000101, 0b00000111] = .ok (.push 7, []) := rfl
theorem test_decode_pop : decode [0b01000110, 0b00000111] = .ok (.pop 7, []) := rfl
theorem test_decode_call : decode [0b01010000, 0b00000001] = .ok (.call 1, []) := rfl
theorem test_decode_ret : decode [0b00010001] = .ok (.ret, []) := rfl
theorem test_decode_jmp : decode [0b01010100, 0b00000010] = .ok (.jmp 2, []) := rfl
theorem test_decode_jeq : decode [0b01010101, 0b00000011] = .ok (.jeq 3, []) := rfl
theorem test_decode_jne : decode [0b01010110, 0b00000011] = .ok (.jne 3, []) := rfl
/-- R57: 0x00 is illegal. R51: bits 7:6 = 11 are illegal. R69: an operand byte is missing. -/
theorem test_decode_rejects :
    decode [0x00] = .error (.illegalOpcode 0x00) ∧ decode [0xC0, 0, 0, 0] = .error (.illegalOpcode 0xC0) ∧
    decode [0x82, 0x00] = .error (.missingOperand 0x82) ∧ decode [] = .error .noOpcode := ⟨rfl, rfl, rfl, rfl⟩
/-- The host's numbering: the first byte is bits 7..0. -/
theorem test_table_word : decodeTableWord 24 0x0800_82 = some (.ldi 0 8) ∧ decodeTableWord 8 0x47 = some (.prn 0) ∧
    decodeTableWord 24 0xFF = none := by decide

/-! ## Single steps -/

/-- The reset state with `bytes` at address `pc` and the program counter there. -/
def atPc (pc : PcWord) (bytes : List Byte) : State :=
  { State.reset with pc := pc, mem := Memory.writeFrom [] pc.toNat bytes }

/-- One field of the state after a step. -/
def after {α : Type} (s : State) (f : State → α) : Option α :=
  match step s with
  | .next t => some (f t)
  | _ => none

/-- The state after the step has taken this fault and differs in nothing else. -/
def faults (s : State) (kind : FaultKind) (op : Option Byte) : Bool :=
  after s id = some { s with status := .faulted ⟨kind, s.pc, op⟩ }

/-- E1, E5: IllegalInstruction, at 0xFF before any operand fetch. -/
theorem test_fetch_illegal :
    faults State.reset .illegalInstruction (some 0x00) ∧ faults (atPc 0xFF [0xFF]) .illegalInstruction (some 0xFF) := by
  decide
/-- E7, E8, E9: OutOfBounds on the second operand, the first operand and the opcode. -/
theorem test_fetch_out_of_bounds :
    faults (atPc 0xFE [0x82, 0x00]) .outOfBounds (some 0x82) ∧ faults (atPc 0xFF [0x82]) .outOfBounds (some 0x82) ∧
    faults (atPc 0x100 []) .outOfBounds none := by decide
/-- E10: the pc passes 0xFF without wrapping around and without a fault. -/
theorem test_pc_does_not_wrap :
    after ((atPc 0xFE [0x47, 0x00]).setReg 0 0xFE) (fun t => (t.out, t.pc, t.status)) = some ([254], 0x100, .running) := by
  decide

/-- H2. -/
theorem test_hlt_at_the_top : after (atPc 0xFF [0x01]) (fun t => (t.status, t.pc)) = some (.halted, 0x100) := by decide
/-- R66: a halted machine takes no step. -/
theorem test_hlt_is_terminal : after { State.reset with status := .halted } State.pc = none := by decide
/-- I2. -/
theorem test_ldi_r7 : after (atPc 0 [0x82, 0x07, 0x10]) (fun t => (t.reg 7, t.pc)) = some (0x10, 3) := by decide
/-- I5: no masking to three bits. -/
theorem test_ldi_invalid : faults (atPc 0 [0x82, 0xFF, 0x05]) .invalidRegister (some 0x82) := by decide
/-- W1. -/
theorem test_prn : after ((atPc 0 [0x47, 0x02]).setReg 2 0xFF) (fun t => (t.out, t.pc)) = some ([255], 2) := by decide
/-- W3. -/
theorem test_prn_invalid : faults (atPc 0 [0x47, 0x08]) .invalidRegister (some 0x47) := by decide
/-- R83: decimal, one newline. -/
theorem test_sink_text : sinkText 8 = ['8', '\n'] ∧ sinkText 255 = ['2', '5', '5', '\n'] ∧ sinkText 0 = ['0', '\n'] := by
  decide
/-- A3. -/
theorem test_add_wraps :
    after (((atPc 0 [0xA0, 0x00, 0x01]).setReg 0 200).setReg 1 100) (fun t => (t.reg 0, t.reg 1, t.fl, t.pc)) =
      some (44, 100, 0, 3) := by decide
/-- A10: ADD R7, R0. -/
theorem test_add_r7 : after ((atPc 0 [0xA0, 0x07, 0x00]).setReg 0 1) (fun t => (t.reg 7, t.reg 0)) = some (0xF5, 1) := by
  decide
/-- M1. -/
theorem test_mul_wraps :
    after (((atPc 0 [0xA2, 0x00, 0x01]).setReg 0 200).setReg 1 100) (fun t => (t.reg 0, t.reg 1, t.pc)) =
      some (32, 100, 3) := by decide
/-- M3. -/
theorem test_mul_largest :
    after (((atPc 0 [0xA2, 0x00, 0x01]).setReg 0 255).setReg 1 255) (fun t => t.reg 0) = some 1 := by decide
/-- V6: unsigned. -/
theorem test_div_unsigned :
    after (((atPc 0 [0xA3, 0x00, 0x01]).setReg 0 255).setReg 1 2) (fun t => (t.reg 0, t.pc)) = some (127, 3) := by decide
/-- V8, V12: DivideByZero, and InvalidRegister before it. -/
theorem test_div_faults :
    faults ((atPc 0 [0xA3, 0x00, 0x01]).setReg 0 7) .divideByZero (some 0xA3) ∧
    faults (atPc 0 [0xA3, 0x09, 0x01]) .invalidRegister (some 0xA3) := by decide
/-- Q4: unsigned, the first operand is the smaller. -/
theorem test_cmp_unsigned :
    after ((atPc 0 [0xA7, 0x00, 0x01]).setReg 1 255) (fun t => (t.fl, t.reg 0, t.reg 1, t.pc)) = some (0x04, 0, 255, 3) := by
  decide
/-- Q9: the old L bit is cleared. -/
theorem test_cmp_overwrites : after ((atPc 0 [0xA7, 0x00, 0x01]).setFl 0x04) State.fl = some 0x01 := by decide
/-- K7: the old SP is stored. -/
theorem test_push_r7 :
    after (atPc 0 [0x45, 0x07]) (fun t => (t.reg 7, t.mem.read 0xF3, t.pc)) = some (0xF3, 0xF4, 2) := by decide
/-- K3, K10. -/
theorem test_push_faults :
    faults (((atPc 0x20 [0x45, 0x00]).setReg 7 0).setReg 0 1) .outOfBounds (some 0x45) ∧
    faults ((atPc 0x20 [0x45, 0x08]).setReg 7 0) .invalidRegister (some 0x45) := by decide
/-- K8: the destination write wins. -/
theorem test_pop_r7 :
    after { atPc 0 [0x46, 0x07] with mem := Memory.writeFrom [] 0 [0x46, 0x07] |>.write 0xF4 0x20 }
      (fun t => (t.reg 7, t.mem.read 0xF4, t.pc)) = some (0x20, 0x20, 2) := by decide
/-- K5. -/
theorem test_pop_faults : faults ((atPc 0xFD [0x46, 0x00, 0x77]).setReg 7 0xFF) .outOfBounds (some 0x46) := by decide
/-- T3: the return address is truncated. -/
theorem test_call_at_fe :
    after ((atPc 0xFE [0x50, 0x01]).setReg 1 0x10) (fun t => (t.reg 7, t.mem.read 0xF3, t.pc)) =
      some (0xF3, 0x00, 0x10) := by decide
/-- T7: CALL R7 jumps to the old SP. -/
theorem test_call_r7 :
    after (atPc 0 [0x50, 0x07]) (fun t => (t.reg 7, t.mem.read 0xF3, t.pc)) = some (0xF3, 0x02, 0xF4) := by decide
/-- T2. -/
theorem test_ret :
    after (((atPc 0x0E [0x11]).setMem ([(0x0E, 0x11), (0xF3, 0x08)])).setReg 7 0xF3) (fun t => (t.pc, t.reg 7)) =
      some (0x08, 0xF4) := by decide
/-- T5. -/
theorem test_ret_faults : faults ((atPc 0x20 [0x11]).setReg 7 0xFF) .outOfBounds (some 0x11) := by decide
/-- T9. -/
theorem test_jmp : after ((atPc 0x10 [0x54, 0x02]).setReg 2 0x20) State.pc = some 0x20 := by decide
/-- T11. -/
theorem test_jmp_invalid : faults (atPc 0x10 [0x54, 0x09]) .invalidRegister (some 0x54) := by decide
/-- T12, T13. -/
theorem test_jeq :
    after (((atPc 0x10 [0x55, 0x03]).setReg 3 0x30).setFl 0x01) State.pc = some 0x30 ∧
    after (((atPc 0x10 [0x55, 0x03]).setReg 3 0x30).setFl 0x02) State.pc = some 0x12 := by decide
/-- T20, T21. -/
theorem test_jeq_invalid :
    faults ((atPc 0x10 [0x55, 0x09]).setFl 0x01) .invalidRegister (some 0x55) ∧
    after (atPc 0x10 [0x55, 0x09]) (fun t => (t.pc, t.status)) = some (0x12, .running) := by decide
/-- T19, T16. -/
theorem test_jne :
    after ((atPc 0x10 [0x56, 0x03]).setReg 3 0x30) State.pc = some 0x30 ∧
    after (((atPc 0x10 [0x56, 0x03]).setReg 3 0x30).setFl 0x01) State.pc = some 0x12 := by decide
/-- T22, T23. -/
theorem test_jne_invalid :
    faults (atPc 0x10 [0x56, 0x09]) .invalidRegister (some 0x56) ∧
    after ((atPc 0x10 [0x56, 0x09]).setFl 0x01) (fun t => (t.pc, t.status)) = some (0x12, .running) := by decide
/-- The host's way to place an instruction: LDI R0, 8 as the first instruction after reset (S1). -/
theorem test_with_fetch_word :
    after (State.reset.withFetchWord 24 0x0800_82) (fun t => (t.reg 0, t.pc, t.mem)) = some (8, 3, [(0, 0x82), (2, 0x08)]) := by
  decide

/-! ## Witnesses: the hypotheses of every statement that has some -/

theorem witness_DecodeAndEncodeAgree : decode [0x82, 0xFF, 0x05, 0x01] = .ok (.ldi 0xFF 0x05, [0x01]) := rfl
theorem witness_HighBitsGiveTheLength : ∃ i rest, decode (0x82 :: [0, 8, 1]) = .ok (i, rest) := ⟨_, _, rfl⟩
theorem witness_LoadedMachineHoldsTheStatedResetValues :
    (List.replicate 256 (0x01 : Byte)).length ≤ 256 ∧ 255 < (List.replicate 256 (0x01 : Byte)).length := by
  rw [List.length_replicate]; decide
theorem witness_LoadedMachineHoldsTheDecidedResetValues :
    (List.replicate 256 (0x01 : Byte)).length ≤ 256 ∧ [(0x01 : Byte)].length ≤ 1 ∧
    256 < (List.replicate 257 (0x01 : Byte)).length := by
  rw [List.length_replicate, List.length_replicate]; decide
theorem witness_LoadedMachineMeetsTheInvariant : ∃ s, loadProgram [0x82, 0x00, 0x08] = .ok s := ⟨_, rfl⟩
theorem witness_MemoryWriteSetsOneCellModulo256 : (255 ≤ 255 ∧ Memory.wf [(255, 0x01)]) ∧ 255 < 256 := by decide

/-- PRN at the last two addresses. -/
theorem witness_StepRunsTheInstructionAtPc :
    (atPc 0xFE [0x47, 0x02]).status = .running ∧ (atPc 0xFE [0x47, 0x02]).pc.toNat + (Instr.prn 2).operandCount ≤ 255 ∧
    ∀ (k : Nat) (h : k < (encode (.prn 2)).length),
      (atPc 0xFE [0x47, 0x02]).mem.read ((atPc 0xFE [0x47, 0x02]).pc.toNat + k) = (encode (.prn 2))[k] := by decide
theorem witness_StepIsEnabledExactlyWhileRunning :
    State.reset.status = .running ∧ (State.reset.setStatus .halted).status = .halted ∧
    ∃ r, (State.reset.setStatus (.faulted ⟨.outOfBounds, 0x100, none⟩)).status = .faulted r := ⟨rfl, rfl, _, rfl⟩
theorem witness_IllegalInstructionExactlyOffTheTable :
    (atPc 0xFF [0xFF]).status = .running ∧ (atPc 0xFF [0xFF]).pc.toNat ≤ 255 ∧
    (atPc 0xFF [0xFF]).byteAt 0 ∉ legalOpcodes := by decide
theorem witness_FetchBeyondMemoryIsOutOfBounds_opcode :
    (atPc 0x100 []).status = .running ∧ 255 < (atPc 0x100 []).pc.toNat := by decide
theorem witness_FetchBeyondMemoryIsOutOfBounds_operand :
    (atPc 0xFE [0x82, 0x00]).status = .running ∧ (atPc 0xFE [0x82, 0x00]).pc.toNat ≤ 255 ∧
    (atPc 0xFE [0x82, 0x00]).byteAt 0 ∈ legalOpcodes ∧
    255 < (atPc 0xFE [0x82, 0x00]).pc.toNat + ((atPc 0xFE [0x82, 0x00]).byteAt 0 >>> 6).toNat := by decide

theorem witness_HltHaltsAndAdvances :
    ∃ t, State.reset.status = .running ∧ exec .hlt State.reset = .next t ∧ t.status = .halted := ⟨_, rfl, rfl, rfl⟩
/-- The boundary of the register operand, for LDI, PRN, JMP: 7 names R7, 8 names none. -/
theorem witness_LdiLoadsTheImmediate : (7 : Byte).toNat = (7 : RegIdx).val ∧ 7 < (8 : Byte).toNat := by decide
theorem witness_PrnEmitsTheRegister : (7 : Byte).toNat = (7 : RegIdx).val ∧ 7 < (8 : Byte).toNat := by decide
theorem witness_JmpSetsThePc : (7 : Byte).toNat = (7 : RegIdx).val ∧ 7 < (8 : Byte).toNat := by decide
theorem witness_AddIsTheSumModulo256 :
    ((7 : Byte).toNat = (7 : RegIdx).val ∧ (0 : Byte).toNat = (0 : RegIdx).val) ∧
    (7 < (8 : Byte).toNat ∨ 7 < (0 : Byte).toNat) ∧ (7 < (0 : Byte).toNat ∨ 7 < (8 : Byte).toNat) := by decide
theorem witness_MulIsTheProductModulo256 :
    ((7 : Byte).toNat = (7 : RegIdx).val ∧ (7 : Byte).toNat = (7 : RegIdx).val) ∧
    (7 < (8 : Byte).toNat ∨ 7 < (0 : Byte).toNat) ∧ (7 < (0 : Byte).toNat ∨ 7 < (8 : Byte).toNat) := by decide
theorem witness_DivIsTheFloorOrFaults :
    ((0 : Byte).toNat = (0 : RegIdx).val ∧ (7 : Byte).toNat = (7 : RegIdx).val ∧ (State.reset.reg 7).toNat ≠ 0) ∧
    ((7 : Byte).toNat = (7 : RegIdx).val ∧ (0 : Byte).toNat = (0 : RegIdx).val ∧ (State.reset.reg 0).toNat = 0) ∧
    (7 < (0 : Byte).toNat ∨ 7 < (8 : Byte).toNat) := by decide
theorem witness_CmpWritesTheFlagsOnly :
    (State.reset.reg 0).toNat = (State.reset.reg 1).toNat ∧ (State.reset.reg 7).toNat > (State.reset.reg 0).toNat ∧
    (State.reset.reg 0).toNat < (State.reset.reg 7).toNat ∧ (7 < (8 : Byte).toNat ∨ 7 < (0 : Byte).toNat) := by decide

/-- SP = 1, the lowest SP a push goes through with, and R7 as the operand. -/
theorem witness_PushStoresBelowTheStackPointer :
    (7 : Byte).toNat = (7 : RegIdx).val ∧ (State.reset.setReg 7 1).reg 7 ≠ 0x00 := by decide
theorem witness_CallPushesTheReturnAddressAndJumps :
    (7 : Byte).toNat = (7 : RegIdx).val ∧ (State.reset.setReg 7 1).reg 7 ≠ 0x00 := by decide
/-- SP = 0xFE, the highest SP a pop goes through with, and R7 as the operand. -/
theorem witness_PopLoadsFromTheStackPointer :
    (7 : Byte).toNat = (7 : RegIdx).val ∧ (State.reset.setReg 7 0xFE).reg 7 ≠ 0xFF ∧ (0 : RegIdx) ≠ 7 := by decide
theorem witness_RetPopsThePc : (State.reset.setReg 7 0xFE).reg 7 ≠ 0xFF := by decide
theorem witness_StackAccessBeyondMemoryIsOutOfBounds :
    ((7 : Byte).toNat ≤ 7 ∧ (State.reset.setReg 7 0).reg 7 = 0x00) ∧
    ((7 : Byte).toNat ≤ 7 ∧ (State.reset.setReg 7 0xFF).reg 7 = 0xFF) ∧ 7 < (8 : Byte).toNat := by decide
theorem witness_PushThenPopCopiesAndRestores :
    (0 : Byte).toNat = (0 : RegIdx).val ∧ (7 : Byte).toNat = (7 : RegIdx).val ∧
    (State.reset.setReg 7 1).reg 7 ≠ 0x00 := by decide
/-- SP = 3: PUSH R0 at 0 stores to address 2, where the pc then stands. -/
theorem witness_PushedByteIsFetchedNext :
    ∃ t, (0 : Byte).toNat = (0 : RegIdx).val ∧ (State.reset.setReg 7 3).reg 7 ≠ 0x00 ∧
      exec (.push 0) (State.reset.setReg 7 3) = .next t ∧ t.pc.toNat + 1 = ((State.reset.setReg 7 3).reg 7).toNat :=
  ⟨_, by decide, by decide, rfl, by decide⟩
/-- A CALL at 0xFD and one at 0xFE; the callee changed R0 only. -/
theorem witness_CallThenRetReturnsAfterTheCall :
    (0 : Byte).toNat = (0 : RegIdx).val ∧ State.reset.reg 7 ≠ 0x00 ∧
    (∃ t u, exec (.call 0) { State.reset with pc := 0xFD } = .next t ∧ u = t.setReg 0 5 ∧ u.reg 7 = t.reg 7 ∧
      u.mem.read (u.reg 7).toNat = t.mem.read (t.reg 7).toNat) ∧
    (∃ t u, exec (.call 0) { State.reset with pc := 0xFE } = .next t ∧ u = t.setReg 0 5 ∧ u.reg 7 = t.reg 7 ∧
      u.mem.read (u.reg 7).toNat = t.mem.read (t.reg 7).toNat) ∧
    (0xFD : PcWord).toNat ≤ 253 ∧ (0xFE : PcWord).toNat = 254 :=
  ⟨by decide, by decide, ⟨_, _, rfl, rfl, by decide, by decide⟩, ⟨_, _, rfl, rfl, by decide, by decide⟩, by decide,
    by decide⟩
theorem witness_JeqBranchesWhenEqual :
    ((State.reset.setFl 0x01).fl.getLsbD 0 = true ∧ (7 : Byte).toNat = (7 : RegIdx).val ∧ 7 < (8 : Byte).toNat) ∧
    (State.reset.setFl 0x04).fl.getLsbD 0 = false := by decide
theorem witness_JneBranchesWhenNotEqual :
    (State.reset.fl.getLsbD 0 = false ∧ (7 : Byte).toNat = (7 : RegIdx).val ∧ 7 < (8 : Byte).toNat) ∧
    (State.reset.setFl 0x01).fl.getLsbD 0 = true := by decide

/-- One that sets the PC and one that does not, both at pc = 255. -/
theorem witness_PcIsTheTargetOrAdvancesByTheLength :
    (∃ t, exec .ret { State.reset with pc := 0xFF } = .next t ∧ t.status = .running) ∧
    (∃ t, exec .hlt { State.reset with pc := 0xFF } = .next t ∧ t.status = .halted) ∧
    (0xFF : PcWord).toNat ≤ 255 := ⟨⟨_, rfl, rfl⟩, ⟨_, rfl, rfl⟩, by decide⟩
theorem witness_EveryStepKeepsTheInvariant :
    ∃ t, MachineInv (atPc 0 [0x45, 0x07]) ∧ step (atPc 0 [0x45, 0x07]) = .next t := ⟨_, by decide, rfl⟩
/-- Every kind a step can raise first, both places of OutOfBounds beyond the fetch, and none. -/
theorem witness_StepRaisesTheFirstFaultThatApplies :
    firstFault (atPc 0x100 []) = some .outOfBounds ∧ firstFault State.reset = some .illegalInstruction ∧
    firstFault (atPc 0xFF [0x47]) = some .outOfBounds ∧
    firstFault (atPc 0 [0x45, 0x08] |>.setReg 7 0) = some .invalidRegister ∧
    firstFault (atPc 0 [0xA3, 0x07, 0x00]) = some .divideByZero ∧
    firstFault (atPc 0 [0x50, 0x00] |>.setReg 7 0) = some .outOfBounds ∧
    firstFault (atPc 0 [0x11] |>.setReg 7 0xFF) = some .outOfBounds ∧
    firstFault (atPc 0 [0x55, 0x09]) = none := by decide
theorem witness_FaultsChangeOnlyTheStatus :
    (∃ t r, step (atPc 0xFF [0x47]) = .next t ∧ t.status = .faulted r) ∧ (atPc 0xFF [0x47]).pc.toNat ≤ 255 ∧
    (∃ t r, step (atPc 0x100 []) = .next t ∧ t.status = .faulted r) ∧ 255 < (atPc 0x100 []).pc.toNat :=
  ⟨⟨_, _, rfl, rfl⟩, by decide, ⟨_, _, rfl, rfl⟩, by decide⟩
theorem witness_DivideByZeroOnlyByDiv :
    State.reset.status = .running ∧
    ∃ t r, exec (.div 7 0) State.reset = .next t ∧ t.status = .faulted r ∧ r.kind = .divideByZero :=
  ⟨rfl, _, _, rfl, rfl, rfl⟩
theorem witness_InvalidRegisterExactlyOnAccess :
    State.reset.status = .running ∧ (∃ q ∈ accessedRegs (.add 0 8) State.reset, 7 < q.toNat) ∧
    ¬ ∃ q ∈ accessedRegs (.jeq 8) State.reset, 7 < q.toNat := by decide
theorem witness_UnsupportedOperationNeverRaised :
    ∃ t r, step (atPc 0 [0xA3, 0x07, 0x00]) = .next t ∧ t.status = .faulted r := ⟨_, _, rfl, rfl⟩
theorem witness_HaltedOnlyByHlt : ∃ t, step (atPc 0xFF [0x01]) = .next t ∧ t.status = .halted := ⟨_, rfl, rfl⟩
theorem witness_OnlyCmpWritesFlags :
    ∃ t, (∀ ra rb, Instr.add 0 1 ≠ .cmp ra rb) ∧ exec (.add 0 1) State.reset = .next t := ⟨_, by simp, rfl⟩
theorem witness_OnlyTheEqualBitIsRead : (0x06 : Byte).getLsbD 0 = State.reset.fl.getLsbD 0 := by decide
theorem witness_OnlyPushAndCallWriteMemory :
    (∃ t, exec (.pop 0) State.reset = .next t) ∧ (∀ r, Instr.pop 0 ≠ .push r ∧ Instr.pop 0 ≠ .call r) ∧
    pushAddr State.reset = some 0xF3 ∧ pushAddr (State.reset.setReg 7 0) = none :=
  ⟨⟨_, rfl⟩, by simp, by decide, by decide⟩
theorem witness_OnlyListedRegistersAreWritten :
    ∃ t, exec (.push 0) State.reset = .next t ∧ t.reg 7 ≠ State.reset.reg 7 := ⟨_, rfl, by decide⟩
theorem witness_OutputIsAppendOnly :
    (∃ t, step (atPc 0 [0x47, 0x07]) = .next t) ∧
    ∃ t, (∀ r, Instr.pop 0 ≠ .prn r) ∧ exec (.pop 0) State.reset = .next t := ⟨⟨_, rfl⟩, _, by simp, rfl⟩
theorem witness_OutputIsNeverRead : ∃ t, step (atPc 0 [0x47, 0x07]) = .next t := ⟨_, rfl⟩

end Sys2Proof.Tests
end

section
/-! Reset and ingestion: what ingestion yields, and the proof of O4. -/

namespace Sys2Proof.Machine

/-- The one outcome of ingestion that runs (spec/70_reset_and_hazards.md R163). -/
theorem loadProgram_of_length_le {image : List Byte} (h : image.length ≤ 256) :
    loadProgram image = .ok (State.reset.setMem (State.reset.mem.writeFrom 0 image)) := if_pos h

theorem runningFlag_eq_true_iff (s : State) : s.runningFlag = true ↔ s.status = .running := decide_eq_true_iff

/-- Byte `a` of an image stored from address 0 upward stands at address `a`, whatever memory held before. -/
theorem read_writeFrom_zero (m : Memory) {image : List Byte} {a : Nat} (h : a < image.length) :
    (m.writeFrom 0 image).read a = image[a] := by
  rw [read_writeFrom, if_pos a.zero_le, Nat.sub_zero, List.getElem?_eq_getElem h, Option.getD_some]

/-- Settles O4: ingestion replaces the memory of the reset state and nothing else, so the registers, pc and status are
those of reset, and the image is read back from address 0. -/
theorem loadedMachineHoldsTheStatedResetValues : Obligations.LoadedMachineHoldsTheStatedResetValues := by
  intro image hlen
  have hrun : (State.reset.setMem (State.reset.mem.writeFrom 0 image)).status = .running := setMem_status ..
  exact ⟨_, loadProgram_of_length_le hlen, setMem_pc .., setMem_reg .., hrun, (runningFlag_eq_true_iff _).2 hrun,
    fun _ ha => read_writeFrom_zero _ ha⟩

end Sys2Proof.Machine
end

section
/-! LDI and PRN: what each answers on a valid and on an invalid register operand, and the proofs of O15 and O16. -/

namespace Sys2Proof.Machine

theorem exec_ldi_valid {r : Byte} {d : RegIdx} (imm : Byte) (s : State) (h : r.toNat = d.val) :
    exec (.ldi r imm) s = .next ((s.setReg d imm.toNat).advance (.ldi r imm)) := withReg_valid _ s _ h

theorem exec_ldi_invalid {r : Byte} (imm : Byte) (s : State) (h : 7 < r.toNat) :
    exec (.ldi r imm) s = .next (takeFault .invalidRegister (some 0x82) s) := withReg_invalid _ s _ h

theorem exec_prn_valid {r : Byte} {d : RegIdx} (s : State) (h : r.toNat = d.val) :
    exec (.prn r) s = .next ((s.emit (s.reg d)).advance (.prn r)) := withReg_valid _ s _ h

theorem exec_prn_invalid {r : Byte} (s : State) (h : 7 < r.toNat) :
    exec (.prn r) s = .next (takeFault .invalidRegister (some 0x47) s) := withReg_invalid _ s _ h

/-- Settles O15: with a valid operand the next state is one register write and an advance, whose effect on each field is
known; with an invalid one it is the fault (spec/41_data_io_halt.md R81). -/
theorem ldiLoadsTheImmediate : Obligations.LdiLoadsTheImmediate := by
  intro r imm s
  refine ⟨rfl, fun d hd => ⟨_, exec_ldi_valid imm s hd, ?_⟩, exec_ldi_invalid imm s⟩
  have hload : (s.setReg d imm.toNat).reg d = imm := by rw [reg_setReg_same, trunc8_toNat]
  have hregs : KeepsRegsBut [d] s (s.setReg d imm.toNat) := keepsRegsBut_setReg s d _
  exact ⟨hload, hregs, .refl s, advance_fl .., advance_out .., advance_status .., advance_pc ..⟩

/-- Settles O16: with a valid operand the next state is one value emitted and an advance, which touch OUT and pc alone;
with an invalid one it is the fault, which emits nothing (spec/41_data_io_halt.md R82). -/
theorem prnEmitsTheRegister : Obligations.PrnEmitsTheRegister := by
  intro r s
  refine ⟨rfl, fun d hd => ⟨_, exec_prn_valid s hd, ?_⟩, exec_prn_invalid s⟩
  have hout : (s.emit (s.reg d)).out = s.out ++ [s.reg d] := emit_out ..
  exact ⟨hout, .refl [] s, .refl s, advance_fl .., advance_status .., advance_pc ..⟩

end Sys2Proof.Machine
end

section
/-! ADD, MUL, DIV and CMP: what the shape they share answers for each answer of the ALU and for an invalid operand, and the
proofs of O17, O18, O19 and O20. -/

namespace Sys2Proof.Machine

/-! ## The shared shape, one equation per case -/

section
variable {op : AluOp} {i : Instr} {ra rb : Byte} {a b : RegIdx} {s : State}

theorem execAlu_result {v : Nat} (ha : ra.toNat = a.val) (hb : rb.toNat = b.val)
    (hv : aluApply op (s.reg a) (s.reg b) = .result v) :
    execAlu op i ra rb s = .next ((s.setReg a v).advance i) := by
  rw [execAlu, withRegs_valid i s _ ha hb, hv]

theorem execAlu_flags {fl : Byte} (ha : ra.toNat = a.val) (hb : rb.toNat = b.val)
    (hv : aluApply op (s.reg a) (s.reg b) = .flags fl) :
    execAlu op i ra rb s = .next ((s.setFl fl).advance i) := by
  rw [execAlu, withRegs_valid i s _ ha hb, hv]

theorem execAlu_fails {kind : FaultKind} (ha : ra.toNat = a.val) (hb : rb.toNat = b.val)
    (hv : aluApply op (s.reg a) (s.reg b) = .fails kind) :
    execAlu op i ra rb s = raise i kind s := by
  rw [execAlu, withRegs_valid i s _ ha hb, hv]

theorem execAlu_invalid (h : 7 < ra.toNat ∨ 7 < rb.toNat) : execAlu op i ra rb s = raise i .invalidRegister s :=
  withRegs_invalid i s _ h

/-- A result that fits in a byte is what the first operand's register holds afterwards; of the rest of the state only pc
moves (spec/42_alu.md R91 to R93). -/
theorem execAlu_result_frame {v : Nat} (ha : ra.toNat = a.val) (hb : rb.toNat = b.val)
    (hv : aluApply op (s.reg a) (s.reg b) = .result v) (hlt : v < 256) (hi : i.operandCount = 2) :
    ∃ t, execAlu op i ra rb s = .next t ∧ (t.reg a).toNat = v ∧ KeepsRegsBut [a] s t ∧ KeepsMem s t ∧ t.fl = s.fl ∧
      t.out = s.out ∧ t.status = s.status ∧ t.pc = s.pc + 3 := by
  refine ⟨_, execAlu_result ha hb hv, ?_⟩
  have hval : ((s.setReg a v).reg a).toNat = v := by rw [reg_setReg_same, toNat_trunc8, Nat.mod_eq_of_lt hlt]
  have hregs : KeepsRegsBut [a] s (s.setReg a v) := keepsRegsBut_setReg s a v
  have hpc : ((s.setReg a v).advance i).pc = s.pc + 3 := by rw [advance_pc, setReg_pc, hi]; rfl
  exact ⟨hval, hregs, .refl s, advance_fl .., advance_out .., advance_status .., hpc⟩

end

/-! ## What the ALU answers for each operation -/

theorem aluApply_add (a b : Byte) : aluApply .add a b = .result ((a.toNat + b.toNat) % 256) := rfl

theorem aluApply_mul (a b : Byte) : aluApply .mul a b = .result ((a.toNat * b.toNat) % 256) := rfl

theorem aluApply_div_of_ne {b : Byte} (a : Byte) (h : b.toNat ≠ 0) :
    aluApply .div a b = .result (a.toNat / b.toNat) := by rw [aluApply_div, if_neg h]

theorem aluApply_div_of_eq {b : Byte} (a : Byte) (h : b.toNat = 0) : aluApply .div a b = .fails .divideByZero := by
  rw [aluApply_div, if_pos h]

theorem aluApply_cmp (a b : Byte) : aluApply .cmp a b = .flags (compareFlags a b) := rfl

theorem compareFlags_of_eq {a b : Byte} (h : a.toNat = b.toNat) : compareFlags a b = 0x01 := if_pos h

theorem compareFlags_of_gt {a b : Byte} (h : a.toNat > b.toNat) : compareFlags a b = 0x02 := by
  rw [compareFlags, if_neg (by omega), if_pos h]

theorem compareFlags_of_lt {a b : Byte} (h : a.toNat < b.toNat) : compareFlags a b = 0x04 := by
  rw [compareFlags, if_neg (by omega), if_neg (by omega)]

/-! ## The four instructions -/

theorem exec_add (ra rb : Byte) (s : State) : exec (.add ra rb) s = execAlu .add (.add ra rb) ra rb s := rfl

theorem exec_mul (ra rb : Byte) (s : State) : exec (.mul ra rb) s = execAlu .mul (.mul ra rb) ra rb s := rfl

theorem exec_div (ra rb : Byte) (s : State) : exec (.div ra rb) s = execAlu .div (.div ra rb) ra rb s := rfl

theorem exec_cmp (ra rb : Byte) (s : State) : exec (.cmp ra rb) s = execAlu .cmp (.cmp ra rb) ra rb s := rfl

/-- Settles O17: the ALU answers the sum already reduced, so it fits in the register; an invalid operand is the fault
(spec/42_alu.md R91). -/
theorem addIsTheSumModulo256 : Obligations.AddIsTheSumModulo256 := by
  intro ra rb s
  rw [exec_add]
  refine ⟨rfl, fun a b ha hb => ?_, execAlu_invalid⟩
  exact execAlu_result_frame ha hb (aluApply_add _ _) (Nat.mod_lt _ (by decide)) rfl

/-- Settles O18: the ALU answers the product already reduced, so it fits in the register; an invalid operand is the fault
(spec/42_alu.md R92). -/
theorem mulIsTheProductModulo256 : Obligations.MulIsTheProductModulo256 := by
  intro ra rb s
  rw [exec_mul]
  refine ⟨rfl, fun a b ha hb => ?_, execAlu_invalid⟩
  exact execAlu_result_frame ha hb (aluApply_mul _ _) (Nat.mod_lt _ (by decide)) rfl

/-- Settles O19: the quotient of two bytes is no larger than the dividend, so it fits in the register; a zero divisor and an
invalid operand are the two faults (spec/42_alu.md R93). -/
theorem divIsTheFloorOrFaults : Obligations.DivIsTheFloorOrFaults := by
  intro ra rb s
  rw [exec_div]
  refine ⟨rfl, fun a b ha hb hne => ?_, fun a b ha hb hz => ?_, execAlu_invalid⟩
  · have hfits : (s.reg a).toNat / (s.reg b).toNat < 256 := (Nat.div_le_self _ _).trans_lt (s.reg a).isLt
    exact execAlu_result_frame ha hb (aluApply_div_of_ne _ hne) hfits rfl
  · exact execAlu_fails ha hb (aluApply_div_of_eq _ hz)

/-- Settles O20: FL is written with the compare byte, whose value each of the three unsigned orders decides, and no register
is; an invalid operand is the fault (spec/42_alu.md R94). -/
theorem cmpWritesTheFlagsOnly : Obligations.CmpWritesTheFlagsOnly := by
  intro ra rb s
  rw [exec_cmp]
  refine ⟨rfl, fun a b ha hb => ⟨_, execAlu_flags ha hb (aluApply_cmp _ _), ?_⟩, execAlu_invalid⟩
  exact ⟨compareFlags_of_eq, compareFlags_of_gt, compareFlags_of_lt, .refl [] s, .refl s, advance_out ..,
    advance_status .., advance_pc ..⟩

end Sys2Proof.Machine
end

section
/-! JMP: what it answers on a valid and on an invalid register operand, and the proof of O29. -/

namespace Sys2Proof.Machine

theorem exec_jmp_valid {r : Byte} {d : RegIdx} (s : State) (h : r.toNat = d.val) :
    exec (.jmp r) s = .next (s.jumpTo (s.reg d)) := withReg_valid _ s _ h

theorem exec_jmp_invalid {r : Byte} (s : State) (h : 7 < r.toNat) :
    exec (.jmp r) s = .next (takeFault .invalidRegister (some 0x54) s) := withReg_invalid _ s _ h

/-- Settles O29: with a valid operand the next state is a jump to the register's value, which touches pc alone; with an
invalid one it is the fault, which leaves pc at the JMP (spec/44_control_transfer.md R113). -/
theorem jmpSetsThePc : Obligations.JmpSetsThePc := by
  intro r s
  refine ⟨rfl, fun d hd => ⟨_, exec_jmp_valid s hd, ?_⟩, exec_jmp_invalid s⟩
  have hpc : (s.jumpTo (s.reg d)).pc.toNat = (s.reg d).toNat := jumpTo_pc_toNat s (s.reg d)
  exact ⟨hpc, .refl [] s, .refl s, jumpTo_fl .., jumpTo_out .., jumpTo_status ..⟩

end Sys2Proof.Machine
end

section
/-! DivideByZero: which instruction raises it, what DIV answers for a zero divisor, and the proof of O36. -/

namespace Sys2Proof.Machine

theorem exec_div_zero {ra rb : Byte} {a b : RegIdx} {s : State} (ha : ra.toNat = a.val) (hb : rb.toNat = b.val)
    (hz : s.reg b = 0) : exec (.div ra rb) s = .next (takeFault .divideByZero (some 0xA3) s) := by
  have hz' : (s.reg b).toNat = 0 := congrArg BitVec.toNat hz
  rw [exec_div, execAlu_fails ha hb (aluApply_div_of_eq _ hz'), raise_eq, Instr.opcode]

/-- An instruction that leaves a running machine Faulted with DivideByZero is a DIV whose operands are valid and whose
divisor is 0: in every other case the status is kept, is Halted, or carries another kind (spec/60_exceptions.md R134). -/
theorem eq_div_of_exec_divideByZero {i : Instr} {s t : State} {pc : PcWord} {op : Option Byte}
    (hs : s.status = .running) (h : exec i s = .next t) (hr : t.status = .faulted ⟨.divideByZero, pc, op⟩) :
    ∃ (ra rb : Byte) (a b : RegIdx), i = .div ra rb ∧ ra.toNat = a.val ∧ rb.toNat = b.val ∧ s.reg b = 0 := by
  cases i with
  | div ra rb =>
    rcases execDiv_cases h with ⟨_, _, -, -, -, rfl⟩ | ⟨a, b, ha, hb, hz, -⟩ | ⟨-, rfl⟩
    · simp [hs] at hr
    · exact ⟨ra, rb, a, b, rfl, ha, hb, hz⟩
    · simp at hr
  | hlt => obtain rfl := next_inj h; simp at hr
  | ldi => rcases execLdi_cases h with ⟨_, -, rfl⟩ | ⟨-, rfl⟩ <;> simp [hs] at hr
  | prn => rcases execPrn_cases h with ⟨_, -, rfl⟩ | ⟨-, rfl⟩ <;> simp [hs] at hr
  | add => rcases execAdd_cases h with ⟨_, _, -, -, rfl⟩ | ⟨-, rfl⟩ <;> simp [hs] at hr
  | mul => rcases execMul_cases h with ⟨_, _, -, -, rfl⟩ | ⟨-, rfl⟩ <;> simp [hs] at hr
  | cmp => rcases execCmp_cases h with ⟨_, _, -, -, rfl⟩ | ⟨-, rfl⟩ <;> simp [hs] at hr
  | push => rcases execPush_cases h with ⟨_, _, -, -, -, rfl⟩ | ⟨-, -, rfl⟩ | ⟨-, rfl⟩ <;> simp [hs] at hr
  | pop => rcases execPop_cases h with ⟨_, -, -, rfl⟩ | ⟨-, -, rfl⟩ | ⟨-, rfl⟩ <;> simp [hs] at hr
  | call => rcases execCall_cases h with ⟨_, _, -, -, -, rfl⟩ | ⟨-, -, rfl⟩ | ⟨-, rfl⟩ <;> simp [hs] at hr
  | ret => rcases execRet_cases h with ⟨-, rfl⟩ | ⟨-, rfl⟩ <;> simp [hs] at hr
  | jmp => rcases execJmp_cases h with ⟨_, -, rfl⟩ | ⟨-, rfl⟩ <;> simp [hs] at hr
  | jeq => rcases execJeq_cases h with ⟨_, -, -, rfl⟩ | ⟨-, rfl⟩ | ⟨-, -, rfl⟩ <;> simp [hs] at hr
  | jne => rcases execJne_cases h with ⟨_, -, -, rfl⟩ | ⟨-, rfl⟩ | ⟨-, -, rfl⟩ <;> simp [hs] at hr

/-- Settles O36: only a DIV with valid operands and a zero divisor can leave DivideByZero, and it does; a state left
Faulted is the fault taken, which writes status alone (spec/60_exceptions.md R134, R139). -/
theorem divideByZeroOnlyByDiv : Obligations.DivideByZeroOnlyByDiv := by
  intro i s hs
  refine ⟨⟨?_, ?_⟩, fun t r h hr _ => ?_⟩
  · rintro ⟨t, ⟨_, pc, op⟩, h, hr, rfl⟩
    exact eq_div_of_exec_divideByZero hs h hr
  · rintro ⟨ra, rb, a, b, rfl, ha, hb, hz⟩
    exact ⟨_, _, exec_div_zero ha hb hz, takeFault_status .., rfl⟩
  · obtain ⟨ht, -, -⟩ := exec_faulted hs h hr
    exact ht ▸ .refl [] s

end Sys2Proof.Machine
end

section
/-! Encoding: decode undoes encode and encode undoes decode, and the proofs of O1, O2 and O3. -/

namespace Sys2Proof

/-- The decoder reads back what the encoder wrote, whatever follows: one run of the decoder for each row of the opcode
table, for any operand bytes. -/
theorem decode_encode (i : Instr) (rest : List Byte) : decode (encode i ++ rest) = .ok (i, rest) := by
  cases i <;> rfl

/-- Bytes that decode are the encoding of what they decode to: the table entry found under the opcode byte builds only
instructions of that opcode, with the operand bytes given to it. -/
theorem eq_encode_append_of_decode {bs : List Byte} {i : Instr} {rest : List Byte} (h : decode bs = .ok (i, rest)) :
    bs = encode i ++ rest := by
  obtain ⟨op, e, hl, hbs⟩ := decode_ok h
  have hbuilds : e.BuildsOnly op := lookup_buildsOnly hl
  rcases hbs with ⟨rfl, rfl⟩ | ⟨build, b, rfl, rfl, rfl⟩ | ⟨build, b, c, rfl, rfl, rfl⟩
  · obtain ⟨hop, hoperands⟩ := hbuilds
    rw [encode_eq_cons, hop, hoperands]; rfl
  · obtain ⟨hop, hoperands⟩ := hbuilds b
    rw [encode_eq_cons, hop, hoperands]; rfl
  · obtain ⟨hop, hoperands⟩ := hbuilds b c
    rw [encode_eq_cons, hop, hoperands]; rfl

theorem decode_eq_ok_iff {bs : List Byte} {i : Instr} {rest : List Byte} :
    decode bs = .ok (i, rest) ↔ bs = encode i ++ rest :=
  ⟨eq_encode_append_of_decode, fun h => h ▸ decode_encode i rest⟩

/-- Settles O2: the two directions are `eq_encode_append_of_decode` and `decode_encode`. -/
theorem decodeAndEncodeAgree : Obligations.DecodeAndEncodeAgree := fun _ _ _ => decode_eq_ok_iff

/-- The operand count is bits 7:6 of the opcode (spec/30_encoding.md R51). -/
theorem opcode_shift_toNat (i : Instr) : (i.opcode >>> 6).toNat = i.operandCount := by
  obtain ⟨e, hl, hcount⟩ := lookup_opcode i
  rw [← hcount, lookup_operands hl]

/-- Settles O3: the bytes are an encoding and a rest, and an encoding is its opcode and as many operand bytes as the
opcode's bits 7:6 say. -/
theorem highBitsGiveTheLength : Obligations.HighBitsGiveTheLength := by
  intro op bs i rest h
  obtain ⟨rfl, rfl⟩ : op = i.opcode ∧ bs = i.operandBytes ++ rest :=
    List.cons.inj (eq_encode_append_of_decode h)
  rw [opcode_shift_toNat, ← length_operandBytes]
  refine ⟨by rw [length_encode, length_operandBytes], List.drop_left.symm, ?_⟩
  rw [List.length_append]
  exact Nat.le_add_right _ _

/-- Settles O1: each of the 14 byte sequences is the encoding of its instruction (spec/30_encoding.md R53). -/
theorem tableBytesDecode : Obligations.TableBytesDecode := fun r q rest =>
  ⟨decode_encode .hlt rest, decode_encode (.ldi r q) rest, decode_encode (.prn r) rest, decode_encode (.add r q) rest,
    decode_encode (.mul r q) rest, decode_encode (.div r q) rest, decode_encode (.cmp r q) rest,
    decode_encode (.push r) rest, decode_encode (.pop r) rest, decode_encode (.call r) rest, decode_encode .ret rest,
    decode_encode (.jmp r) rest, decode_encode (.jeq r) rest, decode_encode (.jne r) rest⟩

end Sys2Proof
end

section
/-! The step: every instruction answers a next state, what a fetch answers at each kind of pc and byte, and the proofs of
O9 to O13. -/

namespace Sys2Proof.Machine

/-! ## Every instruction answers a next state -/

theorem execPush_next (r : Byte) (s : State) : ∃ t, execPush r s = .next t :=
  withReg_next fun d => by
    rcases push_cases (s.reg d).toNat s with ⟨a, -, -, hp⟩ | ⟨-, hp⟩ <;> rw [hp] <;> exact ⟨_, rfl⟩

theorem execPop_next (r : Byte) (s : State) : ∃ t, execPop r s = .next t :=
  withReg_next fun d => by
    rcases pop_cases s with ⟨-, hp⟩ | ⟨-, hp⟩ <;> rw [hp] <;> exact ⟨_, rfl⟩

theorem execCall_next (r : Byte) (s : State) : ∃ t, execCall r s = .next t :=
  withReg_next fun d => by
    rcases push_cases (s.pc.toNat + 2) s with ⟨a, -, -, hp⟩ | ⟨-, hp⟩ <;> rw [hp] <;> exact ⟨_, rfl⟩

theorem execRet_next (s : State) : ∃ t, execRet s = .next t := by
  unfold execRet
  rcases pop_cases s with ⟨-, hp⟩ | ⟨-, hp⟩ <;> rw [hp] <;> exact ⟨_, rfl⟩

theorem exec_next (i : Instr) (s : State) : ∃ t, exec i s = .next t := by
  cases i with
  | hlt => exact ⟨_, rfl⟩
  | ldi | prn | jmp => exact withReg_next fun _ => ⟨_, rfl⟩
  | add ra rb => exact exec_add ra rb s ▸ execAlu_next ..
  | mul ra rb => exact exec_mul ra rb s ▸ execAlu_next ..
  | div ra rb => exact exec_div ra rb s ▸ execAlu_next ..
  | cmp ra rb => exact exec_cmp ra rb s ▸ execAlu_next ..
  | push => exact execPush_next ..
  | pop => exact execPop_next ..
  | call => exact execCall_next ..
  | ret => exact execRet_next s
  | jeq | jne => exact branchIf_next ..

/-- Settles O11. -/
theorem everyInstructionAnswersANextState : Obligations.EveryInstructionAnswersANextState := exec_next

/-! ## What a step is, by what its fetch answers -/

theorem step_of_fetch_ok {s : State} {i : Instr} (hs : s.status = .running) (hf : fetch s = .ok i) :
    step s = exec i s := by rw [step_running hs, hf]

theorem step_of_fetch_error {s : State} {kind : FaultKind} {op : Option Byte} (hs : s.status = .running)
    (hf : fetch s = .error (kind, op)) : step s = .next (takeFault kind op s) := by rw [step_running hs, hf]

theorem step_next_of_running {s : State} (hs : s.status = .running) : ∃ t, step s = .next t := by
  rcases hf : fetch s with ⟨kind, op⟩ | i
  · exact ⟨_, step_of_fetch_error hs hf⟩
  · exact step_of_fetch_ok hs hf ▸ exec_next i s

theorem step_of_halted {s : State} (hs : s.status = .halted) : step s = .fault .engineHalted := by rw [step, hs]

theorem step_of_faulted {s : State} {r : FaultRecord} (hs : s.status = .faulted r) :
    step s = .fault .engineFaulted := by rw [step, hs]

/-- Settles O10: a step that answers was taken while Running, and while Running both ends of a fetch answer
(spec/40_engine_cycle.md R66). -/
theorem stepIsEnabledExactlyWhileRunning : Obligations.StepIsEnabledExactlyWhileRunning := by
  intro s
  refine ⟨⟨fun ⟨_, h⟩ => (step_cases h).1, step_next_of_running⟩, step_of_halted, ?_⟩
  rintro ⟨r, hr⟩
  exact step_of_faulted hr

/-! ## What a fetch answers -/

/-- The bytes of the fetch window, by position: those among the first three that lie inside memory. -/
theorem getElem?_fetchWindow (s : State) (k : Nat) :
    (fetchWindow s)[k]? = if k ≤ 2 ∧ s.pc.toNat + k ≤ 255 then some (s.mem.read (s.pc.toNat + k)) else none := by
  rw [fetchWindow_eq]
  rcases k with _ | _ | _ | k <;> grind

/-- A fetch succeeds exactly when the window begins with the instruction's encoding. -/
theorem fetch_eq_ok_iff_prefix {s : State} {i : Instr} : fetch s = .ok i ↔ encode i <+: fetchWindow s := by
  rw [fetch_ok]
  exact exists_congr fun _ => decode_eq_ok_iff.trans eq_comm

theorem fetch_of_bytes {s : State} {i : Instr} (hpc : s.pc.toNat + i.operandCount ≤ 255)
    (hbytes : ∀ (k : Nat) (h : k < (encode i).length), s.mem.read (s.pc.toNat + k) = (encode i)[k]) :
    fetch s = .ok i := by
  rw [fetch_eq_ok_iff_prefix, List.prefix_iff_getElem?]
  intro k hk
  have hcount := operandCount_le_two i
  have hlen := length_encode i
  rw [getElem?_fetchWindow, if_pos (by omega), hbytes k hk]

/-- Settles O9: bytes at pc that are the encoding of an instruction are what a fetch decodes. -/
theorem stepRunsTheInstructionAtPc : Obligations.StepRunsTheInstructionAtPc := fun _ _ hs hpc hbytes =>
  step_of_fetch_ok hs (fetch_of_bytes hpc hbytes)

theorem fetch_beyond {s : State} (h : 255 < s.pc.toNat) : fetch s = .error (.outOfBounds, none) := by
  rw [fetch, fetchWindow_eq, if_pos h, decode_nil]

theorem fetch_illegal {s : State} (hpc : s.pc.toNat ≤ 255) (h : s.byteAt 0 ∉ legalOpcodes) :
    fetch s = .error (.illegalInstruction, some (s.byteAt 0)) := by
  obtain ⟨rest, (hw : fetchWindow s = s.byteAt 0 :: rest), -⟩ := fetchWindow_cons hpc
  rw [fetch, hw, decode_illegal rest ((lookup_eq_none_iff _).2 h)]

theorem lookup_of_legal {op : Byte} (h : op ∈ legalOpcodes) : ∃ e, lookup op = some e :=
  Option.ne_none_iff_exists'.1 fun hnone => (lookup_eq_none_iff op).1 hnone h

theorem operands_le_two (e : OpcodeEntry) : e.operands ≤ 2 := by cases e <;> simp [OpcodeEntry.operands]

/-- A legal opcode whose operand bytes do not all lie inside memory: the window is too short for it. -/
theorem fetch_short {s : State} (hpc : s.pc.toNat ≤ 255) (hlegal : s.byteAt 0 ∈ legalOpcodes)
    (h : 255 < s.pc.toNat + (s.byteAt 0 >>> 6).toNat) : fetch s = .error (.outOfBounds, some (s.byteAt 0)) := by
  obtain ⟨e, hl⟩ := lookup_of_legal hlegal
  obtain ⟨rest, (hw : fetchWindow s = s.byteAt 0 :: rest), hlen⟩ := fetchWindow_cons hpc
  have hcount := operands_le_two e
  rw [← lookup_operands hl] at h
  rw [fetch, hw, decode_short hl (by omega)]

/-- Settles O13: in both cases the fetch answers OutOfBounds, and the step takes it (spec/40_engine_cycle.md R67, R69). -/
theorem fetchBeyondMemoryIsOutOfBounds : Obligations.FetchBeyondMemoryIsOutOfBounds := fun _ hs =>
  ⟨fun hpc => step_of_fetch_error hs (fetch_beyond hpc),
    fun hpc hlegal h => step_of_fetch_error hs (fetch_short hpc hlegal h)⟩

/-- A step that leaves IllegalInstruction fetched a byte that is not an opcode: no instruction raises it, nor does a
fetch that leaves memory. -/
theorem illegal_of_step {s t : State} {r : FaultRecord} (h : step s = .next t) (hr : t.status = .faulted r)
    (hk : r.kind = .illegalInstruction) : s.pc.toNat ≤ 255 ∧ s.byteAt 0 ∉ legalOpcodes := by
  obtain ⟨hs, ⟨i, -, h⟩ | ⟨kind, op, hf, rfl⟩⟩ := step_cases h
  · obtain ⟨-, -, hkind⟩ := exec_faulted hs h hr
    simp [hk] at hkind
  · obtain rfl := faulted_of_takeFault hr
    rcases fetch_error hf with ⟨-, rfl, -⟩ | ⟨hpc, -, -, hl⟩ | ⟨-, rfl, -⟩
    · cases hk
    · exact ⟨hpc, (lookup_eq_none_iff _).1 hl⟩
    · cases hk

/-- Settles O12: a byte off the table makes the fetch answer IllegalInstruction, and nothing else does
(spec/60_exceptions.md R133). -/
theorem illegalInstructionExactlyOffTheTable : Obligations.IllegalInstructionExactlyOffTheTable := by
  intro s hs
  have hstep (hpc : s.pc.toNat ≤ 255) (h : s.byteAt 0 ∉ legalOpcodes) :
      step s = .next (takeFault .illegalInstruction (some (s.byteAt 0)) s) :=
    step_of_fetch_error hs (fetch_illegal hpc h)
  refine ⟨⟨?_, ?_⟩, hstep, by decide, rfl, by decide⟩
  · rintro ⟨t, r, h, hr, hk⟩
    exact illegal_of_step h hr hk
  · rintro ⟨hpc, h⟩
    exact ⟨_, _, hstep hpc h, takeFault_status .., rfl⟩

end Sys2Proof.Machine
end

section
/-! Memory, ingestion and the invariant: one cell written at a time, what ingestion leaves, that every step keeps the
invariant, and the proofs of O5 to O8 and O33. -/

namespace Sys2Proof.Machine

/-- Settles O8: inside memory the write stores the truncated value at its own address; outside it answers nothing
(spec/20_memory.md R32). -/
theorem memoryWriteSetsOneCellModulo256 : Obligations.MemoryWriteSetsOneCellModulo256 := by
  intro m a v
  refine ⟨fun ha => ⟨_, memWrite_inside m v ha, ?_, fun b hb => read_write_ne m _ hb, fun hm => write_wf _ hm ha⟩,
    memWrite_outside m v⟩
  rw [read_write_same, toNat_trunc8]

/-! ## Ingestion -/

theorem loadProgram_of_length_gt {image : List Byte} (h : 256 < image.length) :
    loadProgram image = .error .imageTooLong := if_neg (Nat.not_le.2 h)

/-- An address beyond an image stored from address 0 upward reads as before. -/
theorem read_writeFrom_zero_beyond (m : Memory) {image : List Byte} {a : Nat} (h : image.length ≤ a) :
    (m.writeFrom 0 image).read a = m.read a := by
  rw [read_writeFrom, if_pos a.zero_le, Nat.sub_zero, List.getElem?_eq_none h, Option.getD_none]

/-- Settles O5: ingestion replaces memory alone, so the registers, FL and OUT are those of reset, and cells beyond the
image read as in the empty memory. -/
theorem loadedMachineHoldsTheDecidedResetValues : Obligations.LoadedMachineHoldsTheDecidedResetValues := by
  intro image
  refine ⟨fun hlen => ⟨_, loadProgram_of_length_le hlen, ?_, setMem_fl .., setMem_out .., fun a ha => ?_⟩,
    loadProgram_of_length_gt⟩
  · exact (by decide : ∀ j : RegIdx, j ≠ 7 → State.reset.reg j = 0x00)
  · exact read_writeFrom_zero_beyond _ ha

theorem machineInv_reset : MachineInv State.reset := ⟨wf_nil, Nat.zero_le _, .inl rfl⟩

/-- Settles O6. -/
theorem resetMeetsTheInvariant : Obligations.ResetMeetsTheInvariant := machineInv_reset

/-- Settles O7: an image that ingestion accepts ends inside memory, so storing it keeps the canonical form, and pc and FL
are those of reset. -/
theorem loadedMachineMeetsTheInvariant : Obligations.LoadedMachineMeetsTheInvariant := by
  intro image s h
  obtain ⟨hwf, hpc, hfl⟩ := machineInv_reset
  rcases Nat.lt_or_ge 256 image.length with hlong | hlen
  · rw [loadProgram_of_length_gt hlong] at h
    cases h
  · obtain rfl : _ = s := Except.ok.inj (loadProgram_of_length_le hlen ▸ h)
    exact ⟨writeFrom_wf image hwf (by omega), hpc, hfl⟩

/-! ## Every step keeps the invariant -/

/-- An instruction whose bytes lie inside memory leaves a pc of at most 256: it stays, or it is a byte, or it has advanced
beyond those bytes. -/
theorem exec_pc_le {i : Instr} {s t : State} (hpc : s.pc.toNat + i.operandCount ≤ 255) (h : exec i s = .next t) :
    t.pc.toNat ≤ 256 := by
  have hadvance : (s.advance i).pc.toNat = s.pc.toNat + 1 + i.operandCount := advance_pc_toNat i (by omega)
  rcases exec_kinds h with ⟨k, rfl, -⟩ | ⟨rfl, rfl⟩ | ⟨-, -, -, ⟨b, ht⟩ | ht, -⟩
  · rw [takeFault_pc]; omega
  · rw [show ((s.setStatus .halted).advance .hlt).pc = (s.advance .hlt).pc from rfl, hadvance]; omega
  · rw [ht, ← jumpTo_pc s, jumpTo_pc_toNat]; omega
  · rw [ht, ← advance_pc, hadvance]; omega

theorem exec_wf {i : Instr} {s t : State} (hwf : s.mem.wf) (h : exec i s = .next t) : t.mem.wf := by
  rcases exec_kinds h with ⟨k, rfl, -⟩ | ⟨-, rfl⟩ | ⟨-, -, ht | ⟨a, v, ha, ht⟩, -⟩
  · exact hwf
  · exact hwf
  · exact ht ▸ hwf
  · exact ht ▸ write_wf v hwf ha

theorem exec_legalFlags {i : Instr} {s t : State} (hfl : LegalFlags s.fl) (h : exec i s = .next t) :
    LegalFlags t.fl := by
  rcases exec_kinds h with ⟨k, rfl, -⟩ | ⟨-, rfl⟩ | ⟨-, -, -, -, ht | ⟨a, b, ht⟩⟩
  · exact hfl
  · exact hfl
  · exact ht ▸ hfl
  · exact ht ▸ .inr (legal_compareFlags a b)

/-- Settles O33: an instruction that a step executes was fetched from inside memory, and keeps each of the three parts; a
fault that the fetch raises touches none of them (spec/10_state.md R16, R18). -/
theorem everyStepKeepsTheInvariant : Obligations.EveryStepKeepsTheInvariant := by
  rintro s t ⟨hwf, hpc, hfl⟩ h
  obtain ⟨-, ⟨i, hf, h⟩ | ⟨kind, op, -, rfl⟩⟩ := step_cases h
  · obtain ⟨hinside, -, -⟩ := fetch_ok_bytes hf
    have hpc' : t.pc.toNat ≤ 256 := exec_pc_le hinside h
    exact ⟨exec_wf hwf h, by omega, exec_legalFlags hfl h⟩
  · exact ⟨hwf, hpc, hfl⟩

end Sys2Proof.Machine
end

section
/-! Halting and faulting: which step halts the machine, what a step that faults leaves and records, and the proofs of O14,
O35, O38 and O39. -/

namespace Sys2Proof.Machine

theorem exec_hlt (s : State) : exec .hlt s = .next ((s.setStatus .halted).advance .hlt) := rfl

/-- Only HLT takes a running machine to Halted: another instruction takes a fault or leaves the status alone. -/
theorem eq_hlt_of_exec_halted {i : Instr} {s t : State} (hs : s.status = .running) (h : exec i s = .next t)
    (ht : t.status = .halted) : i = .hlt := by
  rcases exec_kinds h with ⟨k, rfl, -⟩ | ⟨hi, -⟩ | ⟨-, hstatus, -⟩
  · cases ht
  · exact hi
  · rw [hstatus, hs] at ht; cases ht

/-- Settles O14: HLT writes status and pc alone, and a halted machine takes no step
(spec/41_data_io_halt.md R80, spec/40_engine_cycle.md R66). -/
theorem hltHaltsAndAdvances : Obligations.HltHaltsAndAdvances := by
  refine ⟨rfl, fun i s t => eq_hlt_of_exec_halted, fun s => ⟨_, exec_hlt s, rfl, rfl, advance_pc .., .refl [] s, .refl s,
    advance_fl .., advance_out .., fun u hu => ?_⟩⟩
  rw [step_of_halted rfl] at hu
  cases hu

/-- Settles O39: the halting step executed a fetched HLT, so its opcode stood at pc, inside memory, from where the advance
does not wrap around (spec/40_engine_cycle.md R71, R77). -/
theorem haltedOnlyByHlt : Obligations.HaltedOnlyByHlt := by
  intro s t h ht
  obtain ⟨hs, ⟨i, hf, h⟩ | ⟨kind, op, -, rfl⟩⟩ := step_cases h
  · obtain rfl := eq_hlt_of_exec_halted hs h ht
    obtain rfl := next_inj h
    obtain ⟨hinside, hopcode, -⟩ := fetch_ok_bytes hf
    have hpc : s.pc.toNat ≤ 255 := hinside
    exact ⟨hpc, hopcode, advance_pc_toNat (s := s) .hlt hpc, rfl⟩
  · cases ht

/-- Settles O35: the fault was taken by an instruction, whose opcode is the byte at pc, or by the fetch, which records that
byte if there is one; taking a fault writes status alone (spec/60_exceptions.md R139). -/
theorem faultsChangeOnlyTheStatus : Obligations.FaultsChangeOnlyTheStatus := by
  intro s t r h hr
  obtain ⟨hs, ⟨i, hf, h⟩ | ⟨kind, op, hf, rfl⟩⟩ := step_cases h
  · obtain ⟨ht, hrecord, -⟩ := exec_faulted hs h hr
    obtain ⟨hinside, hopcode, -⟩ := fetch_ok_bytes hf
    have hop : r.op = some (s.byteAt 0) := hrecord ▸ congrArg some hopcode.symm
    exact ⟨hrecord ▸ ht, hrecord ▸ rfl, fun _ => hop, fun _ => by omega⟩
  · obtain rfl := faulted_of_takeFault hr
    refine ⟨rfl, rfl, ?_⟩
    rcases fetch_error hf with ⟨hpc, -, hop⟩ | ⟨hpc, -, hop, -⟩ | ⟨hpc, -, hop, -⟩
    · exact ⟨fun _ => by omega, fun _ => hop⟩
    · exact ⟨fun _ => hop, fun _ => by omega⟩
    · exact ⟨fun _ => hop, fun _ => by omega⟩

/-- The kinds a fetch can raise (spec/40_engine_cycle.md R73). -/
theorem kind_of_fetch_error {s : State} {kind : FaultKind} {op : Option Byte} (h : fetch s = .error (kind, op)) :
    kind = .outOfBounds ∨ kind = .illegalInstruction := by
  rcases fetch_error h with ⟨-, hk, -⟩ | ⟨-, hk, -⟩ | ⟨-, hk, -⟩
  · exact .inl hk
  · exact .inr hk
  · exact .inl hk

/-- Settles O38: the kinds an instruction takes and those a fetch raises are known, and UnsupportedOperation is none of
them (spec/42_alu.md R95). -/
theorem unsupportedOperationNeverRaised : Obligations.UnsupportedOperationNeverRaised := by
  refine ⟨fun s t r h hr hk => ?_, fun _ _ _ => rfl⟩
  obtain ⟨hs, ⟨i, -, h⟩ | ⟨kind, op, hf, rfl⟩⟩ := step_cases h
  · obtain ⟨-, -, hkind⟩ := exec_faulted hs h hr
    simp [hk] at hkind
  · obtain rfl := faulted_of_takeFault hr
    obtain rfl | rfl := kind_of_fetch_error hf <;> cases hk

end Sys2Proof.Machine
end

section
/-! PUSH, POP, CALL and RET: what each answers for every operand and stack pointer, and the proofs of O21 to O28. -/

namespace Sys2Proof.Machine

/-! ## One equation per case -/

section
variable {r : Byte} {s : State} {d : RegIdx} {a : Nat}

theorem exec_push_valid (hd : r.toNat = d.val) (ha : pushAddr s = some a) :
    exec (.push r) s = .next (((s.setReg 7 a).setMem (s.mem.write a (s.reg d))).advance (.push r)) := by
  rw [exec, execPush, withReg_valid _ s _ hd, push_of_addr _ ha, trunc8_toNat]

theorem exec_push_zero (hd : r.toNat = d.val) (h0 : s.reg 7 = 0) :
    exec (.push r) s = .next (takeFault .outOfBounds (some 0x45) s) := by
  rw [exec, execPush, withReg_valid _ s _ hd, push_of_zero _ h0]; rfl

theorem exec_push_invalid (hr : 7 < r.toNat) :
    exec (.push r) s = .next (takeFault .invalidRegister (some 0x45) s) := withReg_invalid _ s _ hr

theorem exec_pop_valid (hd : r.toNat = d.val) (hsp : s.reg 7 ≠ 0xFF) :
    exec (.pop r) s = .next
      (((s.setReg 7 ((s.reg 7).toNat + 1)).setReg d (s.mem.read (s.reg 7).toNat).toNat).advance (.pop r)) := by
  rw [exec, execPop, withReg_valid _ s _ hd, pop_of_ne hsp]

theorem exec_pop_top (hd : r.toNat = d.val) (hsp : s.reg 7 = 0xFF) :
    exec (.pop r) s = .next (takeFault .outOfBounds (some 0x46) s) := by
  rw [exec, execPop, withReg_valid _ s _ hd, pop_of_eq hsp]; rfl

theorem exec_pop_invalid (hr : 7 < r.toNat) :
    exec (.pop r) s = .next (takeFault .invalidRegister (some 0x46) s) := withReg_invalid _ s _ hr

theorem exec_call_valid (hd : r.toNat = d.val) (ha : pushAddr s = some a) :
    exec (.call r) s =
      .next (((s.setReg 7 a).setMem (s.mem.write a (trunc8 (s.pc.toNat + 2)))).jumpTo (s.reg d)) := by
  rw [exec, execCall, withReg_valid _ s _ hd, push_of_addr _ ha]

theorem exec_call_zero (hd : r.toNat = d.val) (h0 : s.reg 7 = 0) :
    exec (.call r) s = .next (takeFault .outOfBounds (some 0x50) s) := by
  rw [exec, execCall, withReg_valid _ s _ hd, push_of_zero _ h0]; rfl

theorem exec_call_invalid (hr : 7 < r.toNat) :
    exec (.call r) s = .next (takeFault .invalidRegister (some 0x50) s) := withReg_invalid _ s _ hr

theorem exec_ret_inside (hsp : s.reg 7 ≠ 0xFF) :
    exec .ret s = .next ((s.setReg 7 ((s.reg 7).toNat + 1)).jumpTo (s.mem.read (s.reg 7).toNat)) := by
  rw [exec, execRet, pop_of_ne hsp]

theorem exec_ret_top (hsp : s.reg 7 = 0xFF) : exec .ret s = .next (takeFault .outOfBounds (some 0x11) s) := by
  rw [exec, execRet, pop_of_eq hsp]; rfl

end

/-- An operand byte of at most 7 names a register. -/
theorem exists_regIdx {r : Byte} (h : r.toNat ≤ 7) : ∃ d : RegIdx, r.toNat = d.val :=
  ⟨⟨r.toNat, Nat.lt_succ_of_le h⟩, rfl⟩

/-- Settles O23: the stack faults need a valid operand, which is checked first (spec/60_exceptions.md R140). -/
theorem stackAccessBeyondMemoryIsOutOfBounds : Obligations.StackAccessBeyondMemoryIsOutOfBounds := by
  intro r s
  refine ⟨fun hr h0 => ?_, fun hr hsp => ?_, exec_ret_top,
    fun hr => ⟨exec_push_invalid hr, exec_call_invalid hr, exec_pop_invalid hr⟩⟩
  · obtain ⟨d, hd⟩ := exists_regIdx hr
    exact ⟨exec_push_zero hd h0, exec_call_zero hd h0⟩
  · obtain ⟨d, hd⟩ := exists_regIdx hr
    exact exec_pop_top hd hsp

/-! ## What a push and a pop that go through leave -/

theorem exists_pushAddr {s : State} (h : s.reg 7 ≠ 0) :
    ∃ a, pushAddr s = some a ∧ a + 1 = (s.reg 7).toNat ∧ a < 255 := by
  obtain ⟨a, ha⟩ := Option.ne_none_iff_exists'.1 (mt pushAddr_eq_none.1 h)
  have hsp : a + 1 = (s.reg 7).toNat := pushAddr_eq_some.1 ha
  have hlt := (s.reg 7).isLt
  exact ⟨a, ha, hsp, by omega⟩

theorem toNat_reg_setReg_same (s : State) (i : RegIdx) {v : Nat} (h : v < 256) :
    ((s.setReg i v).reg i).toNat = v := by rw [reg_setReg_same, toNat_trunc8, Nat.mod_eq_of_lt h]

theorem toNat_lt_255 {v : Byte} (h : v ≠ 0xFF) : v.toNat < 255 := by
  have hne : v.toNat ≠ 255 := fun e => h (BitVec.eq_of_toNat_eq e)
  have hlt := v.isLt
  omega

theorem keepsMemBut_write (s : State) (a : Nat) (v : Byte) : KeepsMemBut a s (s.setMem (s.mem.write a v)) :=
  fun _ hb => read_write_ne s.mem v hb

theorem KeepsRegsBut.mono {ds es : List RegIdx} {s t : State} (h : KeepsRegsBut ds s t) (hsub : ds ⊆ es) :
    KeepsRegsBut es s t := fun j hj => h j fun hmem => hj (hsub hmem)

/-- Two register writes change those two registers alone. -/
theorem keepsRegsBut_setReg_setReg (s : State) (i j : RegIdx) (v w : Nat) :
    KeepsRegsBut [i, j] s ((s.setReg i v).setReg j w) := by
  intro k hk
  obtain ⟨hi, hj⟩ : k ≠ i ∧ k ≠ j := by simpa using hk
  rw [reg_setReg_ne _ w hj, reg_setReg_ne _ v hi]

/-! ## The four instructions -/

/-- Settles O21: the next state is R7 written, one cell written with the operand's old value, and an advance
(spec/43_stack.md R101, R104). -/
theorem pushStoresBelowTheStackPointer : Obligations.PushStoresBelowTheStackPointer := by
  intro r s d hd h0
  obtain ⟨a, ha, hsp, hlt⟩ := exists_pushAddr h0
  refine ⟨a, _, ha, hsp, exec_push_valid hd ha, ?_⟩
  have hregs : KeepsRegsBut [7] s (s.setReg 7 a) := keepsRegsBut_setReg s 7 a
  have hcell : (s.mem.write a (s.reg d)).read a = s.reg d := read_write_same ..
  have hmem : KeepsMemBut a s (s.setMem (s.mem.write a (s.reg d))) := keepsMemBut_write s a _
  exact ⟨toNat_reg_setReg_same s 7 (by omega), hregs, hcell, hmem, rfl, rfl, rfl, advance_pc ..⟩

/-- Settles O22: the next state is R7 written, then the destination, so the destination's value wins, and an advance
(spec/43_stack.md R102, R104). -/
theorem popLoadsFromTheStackPointer : Obligations.PopLoadsFromTheStackPointer := by
  intro r s d hd hsp
  have hlt := toNat_lt_255 hsp
  refine ⟨_, exec_pop_valid hd hsp, ?_, fun hd7 => ?_, ?_, .refl s, rfl, rfl, rfl, advance_pc ..⟩
  · rw [advance_reg, reg_setReg_same, trunc8_toNat]
  · rw [advance_reg, reg_setReg_ne _ _ hd7.symm, toNat_reg_setReg_same s 7 (by omega)]
  · exact keepsRegsBut_setReg_setReg s 7 d _ _

/-- Settles O26: the next state is R7 written, one cell written with the return address, and a jump to the target's old
value (spec/44_control_transfer.md R111). -/
theorem callPushesTheReturnAddressAndJumps : Obligations.CallPushesTheReturnAddressAndJumps := by
  intro r s d hd h0
  obtain ⟨a, ha, hsp, hlt⟩ := exists_pushAddr h0
  refine ⟨a, _, ha, hsp, exec_call_valid hd ha, jumpTo_pc_toNat .., ?_⟩
  have hregs : KeepsRegsBut [7] s (s.setReg 7 a) := keepsRegsBut_setReg s 7 a
  have hcell : ((s.mem.write a (trunc8 (s.pc.toNat + 2))).read a).toNat = (s.pc.toNat + 2) % 256 := by
    rw [read_write_same, toNat_trunc8]
  have hmem : KeepsMemBut a s (s.setMem (s.mem.write a (trunc8 (s.pc.toNat + 2)))) := keepsMemBut_write s a _
  exact ⟨toNat_reg_setReg_same s 7 (by omega), hregs, hcell, hmem, rfl, rfl, rfl⟩

/-- Settles O27: the next state is R7 written and a jump to the byte at SP (spec/44_control_transfer.md R112). -/
theorem retPopsThePc : Obligations.RetPopsThePc := by
  intro s hsp
  have hlt := toNat_lt_255 hsp
  have hregs : KeepsRegsBut [7] s (s.setReg 7 ((s.reg 7).toNat + 1)) := keepsRegsBut_setReg s 7 _
  exact ⟨_, exec_ret_inside hsp, jumpTo_pc_toNat .., toNat_reg_setReg_same s 7 (by omega), hregs, .refl s, rfl, rfl, rfl⟩

/-! ## A push followed by a pop, a fetch or a return -/

/-- Settles O24: the push leaves SP at the cell it stored to, so the pop goes through and reads the value stored; the two
statements about PUSH and POP say the rest (spec/43_stack.md R105). -/
theorem pushThenPopCopiesAndRestores : Obligations.PushThenPopCopiesAndRestores := by
  intro ra rb s a b ha hb h0
  obtain ⟨addr, t, -, hsp, hpush, hsp', hregs, hcell, hmem, hfl, hout, hstatus, hpc⟩ :=
    pushStoresBelowTheStackPointer ra s a ha h0
  have hne : t.reg 7 ≠ 0xFF := fun e => by
    have hlt := (s.reg 7).isLt
    have htop : (t.reg 7).toNat = 255 := congrArg BitVec.toNat e
    omega
  obtain ⟨u, hpop, hub, hu7, hregs', hmem', hfl', hout', hstatus', hpc'⟩ :=
    popLoadsFromTheStackPointer rb t b hb hne
  have hcopied : u.reg b = s.reg a := by rw [hub, hsp', hcell]
  have hrestored (hb7 : b ≠ 7) : u.reg 7 = s.reg 7 := BitVec.eq_of_toNat_eq (by rw [hu7 hb7, hsp', hsp])
  have hothers : KeepsRegsBut [7, b] s u := fun j hj =>
    (hregs' j hj).trans (hregs.mono (es := [7, b]) (by simp) j hj)
  have haddr : (s.reg 7).toNat - 1 = addr := by omega
  refine ⟨t, u, hpush, hpop, hcopied, hrestored, hothers, fun hab j _ => ?_, ?_, fun c hc => ?_, hfl'.trans hfl,
    hout'.trans hout, hstatus'.trans hstatus, ?_⟩
  · by_cases hjb : j = b
    · rw [hjb, hcopied, hab]
    · by_cases hj7 : j = 7
      · rw [hj7, hrestored (hj7 ▸ Ne.symm hjb)]
      · exact hothers j (by simp [hj7, hjb])
  · rw [haddr, hmem', hcell]
  · rw [hmem', hmem c (haddr ▸ hc)]
  · rw [hpc', hpc, BitVec.add_assoc]; rfl

/-- Settles O25: the first byte fetched is the one memory reads at pc, and the push has just stored it there
(spec/20_memory.md R43). -/
theorem pushedByteIsFetchedNext : Obligations.PushedByteIsFetchedNext := by
  intro r s t d hd h0 h hpc
  obtain ⟨a, t', -, hsp, hpush, -, -, hcell, -⟩ := pushStoresBelowTheStackPointer r s d hd h0
  obtain rfl : t = t' := next_inj (hpush ▸ h)
  obtain rfl : t.pc.toNat = a := by omega
  have hlt := (s.reg 7).isLt
  rw [List.head?_eq_getElem?, getElem?_fetchWindow, if_pos (by omega), Nat.add_zero, hcell]

/-- Settles O28: RET reads SP and the byte at SP alone, and CALL left there the old SP less one and the return address
(spec/44_control_transfer.md R117). -/
theorem callThenRetReturnsAfterTheCall : Obligations.CallThenRetReturnsAfterTheCall := by
  intro r s t u d hd h0 h hu7 hucell
  obtain ⟨a, t', -, hsp, hcall, -, hsp', -, hcell, -⟩ := callPushesTheReturnAddressAndJumps r s d hd h0
  obtain rfl : t = t' := next_inj (hcall ▸ h)
  have hne : u.reg 7 ≠ 0xFF := fun e => by
    have hlt := (s.reg 7).isLt
    have htop : (t.reg 7).toNat = 255 := congrArg BitVec.toNat (hu7 ▸ e)
    omega
  obtain ⟨v, hret, hpc, hv7, -⟩ := retPopsThePc u hne
  have hreturn : v.pc.toNat = (s.pc.toNat + 2) % 256 := by rw [hpc, hucell, hsp', hcell]
  refine ⟨v, hret, BitVec.eq_of_toNat_eq (by rw [hv7, hu7, hsp', hsp]), fun _ => by omega, fun _ => by omega⟩

end Sys2Proof.Machine
end

section
/-! JEQ and JNE: what a conditional branch answers when it is taken and when it is not, and the proofs of O30 and O31. -/

namespace Sys2Proof.Machine

theorem exec_jeq (r : Byte) (s : State) : exec (.jeq r) s = branchIf (s.fl.getLsbD 0) (.jeq r) r s := rfl

theorem exec_jne (r : Byte) (s : State) : exec (.jne r) s = branchIf (!s.fl.getLsbD 0) (.jne r) r s := rfl

section
variable {i : Instr} {r : Byte} {s : State} {d : RegIdx} {c : Bool}

theorem branchIf_valid (hc : c = true) (hd : r.toNat = d.val) : branchIf c i r s = .next (s.jumpTo (s.reg d)) := by
  rw [hc, branchIf_taken, withReg_valid i s _ hd]

theorem branchIf_invalid (hc : c = true) (hr : 7 < r.toNat) : branchIf c i r s = raise i .invalidRegister s := by
  rw [hc, branchIf_taken, withReg_invalid i s _ hr]

theorem branchIf_skipped (hc : c = false) : branchIf c i r s = .next (s.advance i) := by
  rw [hc, branchIf_not_taken]

/-- A branch that is taken sets pc to the register's value and changes nothing else
(spec/44_control_transfer.md R114, R115). -/
theorem branchIf_valid_frame (hc : c = true) (hd : r.toNat = d.val) :
    ∃ t, branchIf c i r s = .next t ∧ t.pc.toNat = (s.reg d).toNat ∧ KeepsRegsBut [] s t ∧ KeepsMem s t ∧
      t.fl = s.fl ∧ t.out = s.out ∧ t.status = s.status :=
  ⟨_, branchIf_valid hc hd, jumpTo_pc_toNat .., .refl [] s, .refl s, rfl, rfl, rfl⟩

end

/-- Settles O30: JEQ is the branch on FL bit 0. -/
theorem jeqBranchesWhenEqual : Obligations.JeqBranchesWhenEqual := by
  intro r s
  rw [exec_jeq]
  exact ⟨fun hfl d hd => branchIf_valid_frame hfl hd, branchIf_invalid, branchIf_skipped⟩

/-- Settles O31: JNE is the branch on the complement of FL bit 0. -/
theorem jneBranchesWhenNotEqual : Obligations.JneBranchesWhenNotEqual := by
  intro r s
  rw [exec_jne]
  exact ⟨fun hfl d hd => branchIf_valid_frame (congrArg not hfl) hd, fun hfl => branchIf_invalid (congrArg not hfl),
    fun hfl => branchIf_skipped (congrArg not hfl)⟩

end Sys2Proof.Machine
end

section
/-! The first fault: the faults of an instruction in the order it checks for them, the account on raw bytes, and the proofs
of O34 and O37. -/

namespace Sys2Proof.Machine

/-! ## The faults of an instruction -/

/-- Every register operand that the instruction accesses names a register. -/
def ValidAccess (i : Instr) (s : State) : Prop := ∀ q ∈ accessedRegs i s, q.toNat ≤ 7

theorem not_validAccess_iff {i : Instr} {s : State} :
    ¬ ValidAccess i s ↔ ∃ q ∈ accessedRegs i s, 7 < q.toNat := by simp [ValidAccess]

/-- The fault an instruction with valid register operands takes: a zero divisor, or a stack access beyond memory. -/
def operationFault (i : Instr) (s : State) : Option FaultKind :=
  match i with
  | .div _ rb => if ∃ b : RegIdx, rb.toNat = b.val ∧ s.reg b = 0 then some .divideByZero else none
  | .push _ => if s.reg 7 = 0 then some .outOfBounds else none
  | .call _ => if s.reg 7 = 0 then some .outOfBounds else none
  | .pop _ => if s.reg 7 = 0xFF then some .outOfBounds else none
  | .ret => if s.reg 7 = 0xFF then some .outOfBounds else none
  | _ => none

@[simp] theorem operationFault_div (ra rb : Byte) (s : State) : operationFault (.div ra rb) s =
    if ∃ b : RegIdx, rb.toNat = b.val ∧ s.reg b = 0 then some .divideByZero else none := rfl
@[simp] theorem operationFault_push (r : Byte) (s : State) :
    operationFault (.push r) s = if s.reg 7 = 0 then some .outOfBounds else none := rfl
@[simp] theorem operationFault_call (r : Byte) (s : State) :
    operationFault (.call r) s = if s.reg 7 = 0 then some .outOfBounds else none := rfl
@[simp] theorem operationFault_pop (r : Byte) (s : State) :
    operationFault (.pop r) s = if s.reg 7 = 0xFF then some .outOfBounds else none := rfl
@[simp] theorem operationFault_ret (s : State) :
    operationFault .ret s = if s.reg 7 = 0xFF then some .outOfBounds else none := rfl

theorem operationFault_ne_invalidRegister (i : Instr) (s : State) : operationFault i s ≠ some .invalidRegister := by
  cases i with
  | div | push | call | pop | ret => simp
  | _ => exact nofun

/-- An accessed operand that names no register is reported first (spec/60_exceptions.md R140). -/
theorem exec_of_not_validAccess {i : Instr} {s : State} (h : ¬ ValidAccess i s) :
    exec i s = .next (takeFault .invalidRegister (some i.opcode) s) := by
  rw [not_validAccess_iff] at h
  have one {r : Byte} (h : ∃ q ∈ [r], 7 < q.toNat) : 7 < r.toNat := by simpa using h
  have two {ra rb : Byte} (h : ∃ q ∈ [ra, rb], 7 < q.toNat) : 7 < ra.toNat ∨ 7 < rb.toNat := by simpa using h
  cases i with
  | hlt | ret => exact absurd h (by simp [accessedRegs, Instr.regOperands])
  | ldi => exact exec_ldi_invalid _ s (one h)
  | prn => exact exec_prn_invalid s (one h)
  | add ra rb => rw [exec_add, execAlu_invalid (two h), raise_eq]
  | mul ra rb => rw [exec_mul, execAlu_invalid (two h), raise_eq]
  | div ra rb => rw [exec_div, execAlu_invalid (two h), raise_eq]
  | cmp ra rb => rw [exec_cmp, execAlu_invalid (two h), raise_eq]
  | push => exact exec_push_invalid (one h)
  | pop => exact exec_pop_invalid (one h)
  | call => exact exec_call_invalid (one h)
  | jmp => exact exec_jmp_invalid s (one h)
  | jeq r =>
    obtain ⟨htaken, hr⟩ : s.fl.getLsbD 0 = true ∧ 7 < r.toNat := by simpa [accessedRegs] using h
    exact branchIf_invalid htaken hr
  | jne r =>
    obtain ⟨htaken, hr⟩ : s.fl.getLsbD 0 = false ∧ 7 < r.toNat := by simpa [accessedRegs] using h
    exact branchIf_invalid (congrArg not htaken) hr

/-- A valid operand that is accessed names a register. -/
theorem ValidAccess.exists_regIdx {i : Instr} {s : State} {r : Byte} (hv : ValidAccess i s)
    (hr : r ∈ accessedRegs i s) : ∃ d : RegIdx, r.toNat = d.val := Machine.exists_regIdx (hv r hr)

theorem exec_of_operationFault {i : Instr} {s : State} {k : FaultKind} (hv : ValidAccess i s)
    (hk : operationFault i s = some k) : exec i s = .next (takeFault k (some i.opcode) s) := by
  cases i with
  | div ra rb =>
    obtain ⟨a, ha⟩ := hv.exists_regIdx (r := ra) List.mem_cons_self
    obtain ⟨⟨b, hb, hz⟩, rfl⟩ : (∃ b : RegIdx, rb.toNat = b.val ∧ s.reg b = 0) ∧ FaultKind.divideByZero = k := by
      simpa using hk
    exact exec_div_zero ha hb hz
  | push r =>
    obtain ⟨d, hd⟩ := hv.exists_regIdx (r := r) List.mem_cons_self
    obtain ⟨h0, rfl⟩ : s.reg 7 = 0 ∧ FaultKind.outOfBounds = k := by simpa using hk
    exact exec_push_zero hd h0
  | call r =>
    obtain ⟨d, hd⟩ := hv.exists_regIdx (r := r) List.mem_cons_self
    obtain ⟨h0, rfl⟩ : s.reg 7 = 0 ∧ FaultKind.outOfBounds = k := by simpa using hk
    exact exec_call_zero hd h0
  | pop r =>
    obtain ⟨d, hd⟩ := hv.exists_regIdx (r := r) List.mem_cons_self
    obtain ⟨hsp, rfl⟩ : s.reg 7 = 0xFF ∧ FaultKind.outOfBounds = k := by simpa using hk
    exact exec_pop_top hd hsp
  | ret =>
    obtain ⟨hsp, rfl⟩ : s.reg 7 = 0xFF ∧ FaultKind.outOfBounds = k := by simpa using hk
    exact exec_ret_top hsp
  | _ => cases hk

theorem faultFree_of_running {s : State} (h : s.status = .running) : s.FaultFree := fun _ hr => by
  rw [h] at hr
  cases hr

/-- With valid operands and no operation fault, an instruction that a running machine executes takes no fault. -/
theorem exec_faultFree {i : Instr} {s : State} (hs : s.status = .running) (hv : ValidAccess i s)
    (hk : operationFault i s = none) : ∃ t, exec i s = .next t ∧ t.FaultFree := by
  have hff {t : State} (ht : t.status = s.status) : t.FaultFree := faultFree_of_running (ht.trans hs)
  have one {r : Byte} (h : accessedRegs i s = [r]) : ∃ d : RegIdx, r.toNat = d.val :=
    hv.exists_regIdx (h ▸ List.mem_cons_self)
  have two {ra rb : Byte} (h : accessedRegs i s = [ra, rb]) : ∃ a b : RegIdx, ra.toNat = a.val ∧ rb.toNat = b.val :=
    have ⟨a, ha⟩ := hv.exists_regIdx (r := ra) (h ▸ List.mem_cons_self)
    have ⟨b, hb⟩ := hv.exists_regIdx (r := rb) (h ▸ List.mem_cons_of_mem _ List.mem_cons_self)
    ⟨a, b, ha, hb⟩
  cases i with
  | hlt => exact ⟨_, exec_hlt s, fun _ => nofun⟩
  | ldi =>
    obtain ⟨d, hd⟩ := one rfl
    exact ⟨_, exec_ldi_valid _ s hd, hff rfl⟩
  | prn =>
    obtain ⟨d, hd⟩ := one rfl
    exact ⟨_, exec_prn_valid s hd, hff rfl⟩
  | add =>
    obtain ⟨a, b, ha, hb⟩ := two rfl
    exact ⟨_, execAlu_result ha hb (aluApply_add ..), hff rfl⟩
  | mul =>
    obtain ⟨a, b, ha, hb⟩ := two rfl
    exact ⟨_, execAlu_result ha hb (aluApply_mul ..), hff rfl⟩
  | div ra rb =>
    obtain ⟨a, b, ha, hb⟩ := two rfl
    have hnonzero : ∀ b : RegIdx, rb.toNat = b.val → s.reg b ≠ 0 := by simpa using hk
    have hne : (s.reg b).toNat ≠ 0 := fun hz => hnonzero b hb (BitVec.eq_of_toNat_eq hz)
    exact ⟨_, execAlu_result ha hb (aluApply_div_of_ne _ hne), hff rfl⟩
  | cmp =>
    obtain ⟨a, b, ha, hb⟩ := two rfl
    exact ⟨_, execAlu_flags ha hb (aluApply_cmp ..), hff rfl⟩
  | push =>
    obtain ⟨d, hd⟩ := one rfl
    obtain ⟨a, ha, -⟩ := exists_pushAddr (s := s) (by simpa using hk)
    exact ⟨_, exec_push_valid hd ha, hff rfl⟩
  | pop =>
    obtain ⟨d, hd⟩ := one rfl
    exact ⟨_, exec_pop_valid hd (by simpa using hk), hff rfl⟩
  | call =>
    obtain ⟨d, hd⟩ := one rfl
    obtain ⟨a, ha, -⟩ := exists_pushAddr (s := s) (by simpa using hk)
    exact ⟨_, exec_call_valid hd ha, hff rfl⟩
  | ret => exact ⟨_, exec_ret_inside (by simpa using hk), hff rfl⟩
  | jmp =>
    obtain ⟨d, hd⟩ := one rfl
    exact ⟨_, exec_jmp_valid s hd, hff rfl⟩
  | jeq =>
    rcases hfl : s.fl.getLsbD 0
    · exact ⟨_, branchIf_skipped hfl, hff rfl⟩
    · obtain ⟨d, hd⟩ := one (by rw [accessedRegs, hfl]; rfl)
      exact ⟨_, branchIf_valid hfl hd, hff rfl⟩
  | jne =>
    rcases hfl : s.fl.getLsbD 0
    · obtain ⟨d, hd⟩ := one (by rw [accessedRegs, hfl]; rfl)
      exact ⟨_, branchIf_valid (congrArg not hfl) hd, hff rfl⟩
    · exact ⟨_, branchIf_skipped (congrArg not hfl), hff rfl⟩

/-- Settles O37: with an invalid accessed operand the instruction raises InvalidRegister; with valid ones it takes an
operation fault, which is of another kind, or none (spec/60_exceptions.md R132). -/
theorem invalidRegisterExactlyOnAccess : Obligations.InvalidRegisterExactlyOnAccess := by
  intro i s hs
  rw [← not_validAccess_iff]
  refine ⟨?_, fun hv => ⟨_, _, exec_of_not_validAccess hv, takeFault_status .., rfl⟩⟩
  rintro ⟨t, r, h, hr, hk⟩ hv
  rcases hop : operationFault i s with _ | k
  · obtain ⟨t', h', hff⟩ := exec_faultFree hs hv hop
    obtain rfl : t = t' := next_inj (h' ▸ h)
    exact hff r hr
  · obtain rfl := next_inj (exec_of_operationFault hv hop ▸ h)
    obtain rfl := faulted_of_takeFault hr
    exact operationFault_ne_invalidRegister i s (hk ▸ hop)

/-! ## The account on raw bytes agrees -/

/-- The bytes of a fetched instruction stand at pc, pc + 1 and so on. -/
theorem byteAt_of_fetch_ok {s : State} {i : Instr} {k : Nat} {b : Byte} (hf : fetch s = .ok i)
    (hb : (encode i)[k]? = some b) : s.byteAt k = b := by
  obtain ⟨hk, hbk⟩ := List.getElem?_eq_some_iff.1 hb
  have hwindow := List.prefix_iff_getElem?.1 (fetch_eq_ok_iff_prefix.1 hf) k hk
  rw [getElem?_fetchWindow, hbk, Option.ite_none_right_eq_some] at hwindow
  exact Option.some.inj hwindow.2

theorem opcode_legal (i : Instr) : i.opcode ∈ legalOpcodes := by
  obtain ⟨e, hl, -⟩ := lookup_opcode i
  by_contra h
  rw [(lookup_eq_none_iff _).2 h] at hl
  cases hl

theorem accessedAtPc_of_fetch_ok {s : State} {i : Instr} (hf : fetch s = .ok i) :
    accessedAtPc s = accessedRegs i s := by
  have h0 : s.byteAt 0 = i.opcode := byteAt_of_fetch_ok hf rfl
  have h1 {b : Byte} (h : (encode i)[1]? = some b) : s.byteAt 1 = b := byteAt_of_fetch_ok hf h
  have h2 {b : Byte} (h : (encode i)[2]? = some b) : s.byteAt 2 = b := byteAt_of_fetch_ok hf h
  unfold accessedAtPc
  rw [h0]
  cases i with
  | hlt | ret => rfl
  | ldi | prn | push | pop | call | jmp => simp [Instr.opcode, accessedRegs, Instr.regOperands, h1 rfl]
  | add | mul | div | cmp => simp [Instr.opcode, accessedRegs, Instr.regOperands, h1 rfl, h2 rfl]
  | jeq => simp [Instr.opcode, accessedRegs, h1 rfl]
  | jne => cases hfl : s.fl.getLsbD 0 <;> simp [Instr.opcode, accessedRegs, h1 rfl, hfl, -BitVec.getLsbD_eq_getElem]

/-- The account on raw bytes of a fetched instruction is the instruction's own: its operands, then its operation. -/
theorem firstFault_of_fetch_ok {s : State} {i : Instr} (hf : fetch s = .ok i) :
    firstFault s = if ∃ q ∈ accessedRegs i s, 7 < q.toNat then some .invalidRegister else operationFault i s := by
  obtain ⟨hinside, -, -⟩ := fetch_ok_bytes hf
  have h0 : s.byteAt 0 = i.opcode := byteAt_of_fetch_ok hf rfl
  have h2 {b : Byte} (h : (encode i)[2]? = some b) : s.byteAt 2 = b := byteAt_of_fetch_ok hf h
  rw [firstFault, h0, opcode_shift_toNat, if_neg (by omega), if_neg (not_not_intro (opcode_legal i)),
    if_neg (by omega), accessedAtPc_of_fetch_ok hf]
  congr 1
  cases i with
  | div => rw [h2 rfl]; simp [Instr.opcode]
  | push | pop | call | ret => simp [Instr.opcode]
  | _ => rfl

/-- When the fetch fails, the account on raw bytes names the fault the fetch raises, and its record the byte at pc if there
is one (spec/40_engine_cycle.md R73). -/
theorem firstFault_of_fetch_error {s : State} {kind : FaultKind} {op : Option Byte}
    (hf : fetch s = .error (kind, op)) :
    firstFault s = some kind ∧ op = if s.pc.toNat ≤ 255 then some (s.byteAt 0) else none := by
  rcases fetch_error hf with ⟨hpc, rfl, rfl⟩ | ⟨hpc, rfl, rfl, hl⟩ | ⟨hpc, rfl, rfl, e, hl, he⟩
  · rw [firstFault, if_pos hpc, if_neg (by omega)]
    exact ⟨rfl, rfl⟩
  · have hillegal : s.byteAt 0 ∉ legalOpcodes := (lookup_eq_none_iff _).1 hl
    rw [firstFault, if_neg (by omega), if_pos hillegal, if_pos hpc]
    exact ⟨rfl, rfl⟩
  · have hlegal : ¬ s.byteAt 0 ∉ legalOpcodes := fun h => by
      cases hl.symm.trans ((lookup_eq_none_iff _).2 h)
    have hshort : 255 < s.pc.toNat + (s.byteAt 0 >>> 6).toNat := lookup_operands hl ▸ he
    rw [firstFault, if_neg (by omega), if_neg hlegal, if_pos hshort, if_pos hpc]
    exact ⟨rfl, rfl⟩

/-- Settles O34: the step takes the fault of its fetch, or else of the instruction fetched, and the account on raw bytes
names the same one (spec/60_exceptions.md R140). -/
theorem stepRaisesTheFirstFaultThatApplies : Obligations.StepRaisesTheFirstFaultThatApplies := by
  intro s hs
  rcases hf : fetch s with ⟨kind, op⟩ | i
  · obtain ⟨hfirst, rfl⟩ := firstFault_of_fetch_error hf
    rw [hfirst, step_of_fetch_error hs hf]
    exact ⟨fun k hk => Option.some.inj hk ▸ rfl, nofun⟩
  · obtain ⟨hinside, hopcode, -⟩ := fetch_ok_bytes hf
    have hop : (if s.pc.toNat ≤ 255 then some (s.byteAt 0) else none) = some i.opcode := by
      rw [if_pos (by omega), ← hopcode]; rfl
    rw [step_of_fetch_ok hs hf, firstFault_of_fetch_ok hf, hop]
    by_cases hv : ValidAccess i s
    · rw [if_neg fun hinvalid => not_validAccess_iff.2 hinvalid hv]
      exact ⟨fun k hk => exec_of_operationFault hv hk, exec_faultFree hs hv⟩
    · rw [if_pos (not_validAccess_iff.1 hv)]
      exact ⟨fun k hk => Option.some.inj hk ▸ exec_of_not_validAccess hv, nofun⟩

end Sys2Proof.Machine
end

section
/-! Where the PC goes: the target an instruction sets, or the advance, and the proof of O32. -/

namespace Sys2Proof.Machine

/-- Where an instruction leaves pc when it takes no fault: at the target it sets, or advanced (spec/40_engine_cycle.md
R71, spec/44_control_transfer.md R110). -/
theorem exec_pc_cases {i : Instr} {s t : State} (h : exec i s = .next t) :
    (∃ k, t = takeFault k (some i.opcode) s) ∨
    (∃ b, jumpTarget i s = some b ∧ t.pc = (s.jumpTo b).pc) ∨
    (jumpTarget i s = none ∧ t.pc = (s.advance i).pc) := by
  have target {r : Byte} {d : RegIdx} (hd : r.toNat = d.val) : (checkReg r).map s.reg = some (s.reg d) := by
    rw [checkReg_valid hd]; rfl
  cases i with
  | hlt => exact .inr (.inr ⟨rfl, next_inj h ▸ rfl⟩)
  | ldi =>
    rcases execLdi_cases h with ⟨_, -, rfl⟩ | ⟨-, rfl⟩
    · exact .inr (.inr ⟨rfl, rfl⟩)
    · exact .inl ⟨_, rfl⟩
  | prn =>
    rcases execPrn_cases h with ⟨_, -, rfl⟩ | ⟨-, rfl⟩
    · exact .inr (.inr ⟨rfl, rfl⟩)
    · exact .inl ⟨_, rfl⟩
  | add =>
    rcases execAdd_cases h with ⟨_, _, -, -, rfl⟩ | ⟨-, rfl⟩
    · exact .inr (.inr ⟨rfl, rfl⟩)
    · exact .inl ⟨_, rfl⟩
  | mul =>
    rcases execMul_cases h with ⟨_, _, -, -, rfl⟩ | ⟨-, rfl⟩
    · exact .inr (.inr ⟨rfl, rfl⟩)
    · exact .inl ⟨_, rfl⟩
  | div =>
    rcases execDiv_cases h with ⟨_, _, -, -, -, rfl⟩ | ⟨_, _, -, -, -, rfl⟩ | ⟨-, rfl⟩
    · exact .inr (.inr ⟨rfl, rfl⟩)
    · exact .inl ⟨_, rfl⟩
    · exact .inl ⟨_, rfl⟩
  | cmp =>
    rcases execCmp_cases h with ⟨_, _, -, -, rfl⟩ | ⟨-, rfl⟩
    · exact .inr (.inr ⟨rfl, rfl⟩)
    · exact .inl ⟨_, rfl⟩
  | push =>
    rcases execPush_cases h with ⟨_, _, -, -, -, rfl⟩ | ⟨-, -, rfl⟩ | ⟨-, rfl⟩
    · exact .inr (.inr ⟨rfl, rfl⟩)
    · exact .inl ⟨_, rfl⟩
    · exact .inl ⟨_, rfl⟩
  | pop =>
    rcases execPop_cases h with ⟨_, -, -, rfl⟩ | ⟨-, -, rfl⟩ | ⟨-, rfl⟩
    · exact .inr (.inr ⟨rfl, rfl⟩)
    · exact .inl ⟨_, rfl⟩
    · exact .inl ⟨_, rfl⟩
  | call =>
    rcases execCall_cases h with ⟨d, _, hd, -, -, rfl⟩ | ⟨-, -, rfl⟩ | ⟨-, rfl⟩
    · exact .inr (.inl ⟨_, target hd, rfl⟩)
    · exact .inl ⟨_, rfl⟩
    · exact .inl ⟨_, rfl⟩
  | ret =>
    rcases execRet_cases h with ⟨-, rfl⟩ | ⟨-, rfl⟩
    · exact .inr (.inl ⟨_, rfl, rfl⟩)
    · exact .inl ⟨_, rfl⟩
  | jmp =>
    rcases execJmp_cases h with ⟨d, hd, rfl⟩ | ⟨-, rfl⟩
    · exact .inr (.inl ⟨_, target hd, rfl⟩)
    · exact .inl ⟨_, rfl⟩
  | jeq =>
    rcases execJeq_cases h with ⟨d, hfl, hd, rfl⟩ | ⟨hfl, rfl⟩ | ⟨-, -, rfl⟩
    · exact .inr (.inl ⟨_, (if_pos hfl).trans (target hd), rfl⟩)
    · exact .inr (.inr ⟨if_neg (ne_true_of_eq_false hfl), rfl⟩)
    · exact .inl ⟨_, rfl⟩
  | jne =>
    rcases execJne_cases h with ⟨d, hfl, hd, rfl⟩ | ⟨hfl, rfl⟩ | ⟨-, -, rfl⟩
    · exact .inr (.inl ⟨_, (if_neg (ne_true_of_eq_false hfl)).trans (target hd), rfl⟩)
    · exact .inr (.inr ⟨if_pos hfl, rfl⟩)
    · exact .inl ⟨_, rfl⟩

/-- Settles O32: a jump leaves the target's value, an advance from inside memory does not wrap around, and the case of a
fault is excluded. -/
theorem pcIsTheTargetOrAdvancesByTheLength : Obligations.PcIsTheTargetOrAdvancesByTheLength := by
  intro i s t _ hpc h hff
  rcases exec_pc_cases h with ⟨k, rfl⟩ | ⟨b, htarget, ht⟩ | ⟨htarget, ht⟩
  · exact absurd (takeFault_status ..) (hff _)
  · rw [htarget, ht, jumpTo_pc_toNat]
  · rw [htarget, ht, advance_pc_toNat i hpc, length_encode, Nat.add_assoc]

end Sys2Proof.Machine
end

section
/-! What an instruction writes besides pc and status, and the proofs of O40, O42, O43 and O44. -/

namespace Sys2Proof.Machine

/-- The register operand that an instruction loads: the first of LDI, ADD, MUL and DIV. -/
def LoadsOperand (i : Instr) (r : Byte) : Prop :=
  ∃ q, i = .ldi r q ∨ i = .add r q ∨ i = .mul r q ∨ i = .div r q

/-- The state an instruction makes of `s`, before pc and status are set: nothing written, or the one write that its kind
performs (spec/10_state.md R11, R17, R28; spec/20_memory.md R33). -/
inductive Writes (s : State) : Instr → State → Prop
  | nothing (i : Instr) : Writes s i s
  | load {i : Instr} {r : Byte} {d : RegIdx} (v : Nat) : LoadsOperand i r → r.toNat = d.val → Writes s i (s.setReg d v)
  | flags (ra rb fl : Byte) : Writes s (.cmp ra rb) (s.setFl fl)
  | output (r v : Byte) : Writes s (.prn r) (s.emit v)
  | store {i : Instr} {r : Byte} {a : Nat} (v : Byte) : i = .push r ∨ i = .call r → pushAddr s = some a →
      Writes s i ((s.setReg 7 a).setMem (s.mem.write a v))
  | pop {r : Byte} {d : RegIdx} (v w : Nat) : r.toNat = d.val → Writes s (.pop r) ((s.setReg 7 v).setReg d w)
  | ret (v : Nat) : Writes s .ret (s.setReg 7 v)

/-- The states agree in everything but pc and status. -/
def AgreesBesidesPc (u t : State) : Prop := t.mem = u.mem ∧ t.regs = u.regs ∧ t.fl = u.fl ∧ t.out = u.out

theorem AgreesBesidesPc.reg {u t : State} (h : AgreesBesidesPc u t) (j : RegIdx) : t.reg j = u.reg j := by
  obtain ⟨-, hregs, -, -⟩ := h
  rw [State.reg, hregs, State.reg]

theorem exec_writes {i : Instr} {s t : State} (h : exec i s = .next t) : ∃ u, Writes s i u ∧ AgreesBesidesPc u t := by
  have quiet {i : Instr} {t : State} (ht : AgreesBesidesPc s t) : ∃ u, Writes s i u ∧ AgreesBesidesPc u t :=
    ⟨s, .nothing i, ht⟩
  have same {u : State} : AgreesBesidesPc u u := ⟨rfl, rfl, rfl, rfl⟩
  cases i with
  | hlt => exact quiet (next_inj h ▸ same)
  | ldi r imm =>
    rcases execLdi_cases h with ⟨d, hd, rfl⟩ | ⟨-, rfl⟩
    · exact ⟨_, .load _ ⟨imm, .inl rfl⟩ hd, same⟩
    · exact quiet same
  | prn r =>
    rcases execPrn_cases h with ⟨d, -, rfl⟩ | ⟨-, rfl⟩
    · exact ⟨_, .output r _, same⟩
    · exact quiet same
  | add ra rb =>
    rcases execAdd_cases h with ⟨a, b, ha, -, rfl⟩ | ⟨-, rfl⟩
    · exact ⟨_, .load _ ⟨rb, .inr (.inl rfl)⟩ ha, same⟩
    · exact quiet same
  | mul ra rb =>
    rcases execMul_cases h with ⟨a, b, ha, -, rfl⟩ | ⟨-, rfl⟩
    · exact ⟨_, .load _ ⟨rb, .inr (.inr (.inl rfl))⟩ ha, same⟩
    · exact quiet same
  | div ra rb =>
    rcases execDiv_cases h with ⟨a, b, ha, -, -, rfl⟩ | ⟨_, _, -, -, -, rfl⟩ | ⟨-, rfl⟩
    · exact ⟨_, .load _ ⟨rb, .inr (.inr (.inr rfl))⟩ ha, same⟩
    · exact quiet same
    · exact quiet same
  | cmp ra rb =>
    rcases execCmp_cases h with ⟨a, b, -, -, rfl⟩ | ⟨-, rfl⟩
    · exact ⟨_, .flags ra rb _, same⟩
    · exact quiet same
  | push r =>
    rcases execPush_cases h with ⟨d, a, -, ha, -, rfl⟩ | ⟨-, -, rfl⟩ | ⟨-, rfl⟩
    · exact ⟨_, .store _ (.inl rfl) ha, same⟩
    · exact quiet same
    · exact quiet same
  | pop r =>
    rcases execPop_cases h with ⟨d, hd, -, rfl⟩ | ⟨-, -, rfl⟩ | ⟨-, rfl⟩
    · exact ⟨_, .pop _ _ hd, same⟩
    · exact quiet same
    · exact quiet same
  | call r =>
    rcases execCall_cases h with ⟨d, a, -, ha, -, rfl⟩ | ⟨-, -, rfl⟩ | ⟨-, rfl⟩
    · exact ⟨_, .store _ (.inr rfl) ha, same⟩
    · exact quiet same
    · exact quiet same
  | ret =>
    rcases execRet_cases h with ⟨-, rfl⟩ | ⟨-, rfl⟩
    · exact ⟨_, .ret _, same⟩
    · exact quiet same
  | jmp r => rcases execJmp_cases h with ⟨d, -, rfl⟩ | ⟨-, rfl⟩ <;> exact quiet same
  | jeq r => rcases execJeq_cases h with ⟨d, -, -, rfl⟩ | ⟨-, rfl⟩ | ⟨-, -, rfl⟩ <;> exact quiet same
  | jne r => rcases execJne_cases h with ⟨d, -, -, rfl⟩ | ⟨-, rfl⟩ | ⟨-, -, rfl⟩ <;> exact quiet same

/-- Settles O40: of the writes only the one CMP performs is to FL. -/
theorem onlyCmpWritesFlags : Obligations.OnlyCmpWritesFlags := by
  intro i s t hne h
  obtain ⟨u, hu, -, -, hfl, -⟩ := exec_writes h
  rw [hfl]
  cases hu with
  | flags ra rb => exact absurd rfl (hne ra rb)
  | _ => rfl

/-- Settles O42: of the writes only the store, which PUSH and CALL perform, is to memory, at the address below SP
(spec/20_memory.md R33). -/
theorem onlyPushAndCallWriteMemory : Obligations.OnlyPushAndCallWriteMemory := by
  intro i s t h
  obtain ⟨u, hu, hmem, -⟩ := exec_writes h
  cases hu with
  | @store _ r a v hi ha =>
    rw [ha]
    refine ⟨fun hne => absurd hi (not_or.2 (hne r)), ?_, nofun⟩
    rintro _ ⟨⟩ b hb
    rw [hmem]
    exact read_write_ne s.mem v hb
  | _ =>
    have hkeeps : KeepsMem s t := fun a => congrArg (Memory.read · a) hmem
    exact ⟨fun _ => hkeeps, fun _ _ b _ => hkeeps b, fun _ => hkeeps⟩

/-- Settles O43: the writes that touch a register are the loads, the pop and those that move SP (spec/10_state.md R11). -/
theorem onlyListedRegistersAreWritten : Obligations.OnlyListedRegistersAreWritten := by
  intro i s t j h hj
  obtain ⟨u, hu, hagree⟩ := exec_writes h
  rw [hagree.reg] at hj
  have written {u : State} {ds : List RegIdx} (hkeeps : KeepsRegsBut ds s u) (hj : u.reg j ≠ s.reg j) : j ∈ ds :=
    by_contra fun hmem => hj (hkeeps j hmem)
  cases hu with
  | load v hload hd =>
    obtain rfl := List.mem_singleton.1 (written (keepsRegsBut_setReg s _ v) hj)
    obtain ⟨q, hi⟩ := hload
    exact .inl ⟨_, q, by tauto, hd⟩
  | @store _ r a v hi =>
    obtain rfl := List.mem_singleton.1 (written (keepsRegsBut_setReg s 7 a) hj)
    exact .inr ⟨rfl, .inr ⟨r, by tauto⟩⟩
  | @pop r d v w hd =>
    rcases List.mem_pair.1 (written (keepsRegsBut_setReg_setReg s 7 d v w) hj) with rfl | rfl
    · exact .inr ⟨rfl, .inr ⟨r, .inr (.inl rfl)⟩⟩
    · exact .inl ⟨r, 0, by tauto, hd⟩
  | ret v =>
    obtain rfl := List.mem_singleton.1 (written (keepsRegsBut_setReg s 7 v) hj)
    exact .inr ⟨rfl, .inl rfl⟩
  | _ => exact absurd rfl hj

/-- An instruction appends at most one value to OUT, and PRN alone one. -/
theorem exec_out {i : Instr} {s t : State} (h : exec i s = .next t) :
    t.out = s.out ∨ ∃ r v, i = .prn r ∧ t.out = s.out ++ [v] := by
  obtain ⟨u, hu, -, -, -, hout⟩ := exec_writes h
  cases hu with
  | output r v => exact .inr ⟨r, v, rfl, hout⟩
  | _ => exact .inl hout

/-- Settles O44: a step executes an instruction or takes a fault, and a fault leaves OUT alone (spec/10_state.md R28). -/
theorem outputIsAppendOnly : Obligations.OutputIsAppendOnly := by
  refine ⟨fun s t h => ?_, fun i s t hne h => ?_⟩
  · obtain ⟨-, ⟨i, -, h⟩ | ⟨kind, op, -, rfl⟩⟩ := step_cases h
    · rcases exec_out h with ht | ⟨-, v, -, ht⟩
      · exact ⟨[], by rw [ht, List.append_nil], Nat.zero_le 1⟩
      · exact ⟨[v], ht, Nat.le_refl 1⟩
    · exact ⟨[], by rw [takeFault_out, List.append_nil], Nat.zero_le 1⟩
  · rcases exec_out h with ht | ⟨r, -, hi, -⟩
    · exact ht
    · exact absurd hi (hne r)

end Sys2Proof.Machine
end

section
/-! What is not read: an instruction goes on alike from states that differ in FL (but for the bit a branch tests) and in
the values printed before, and the proofs of O41 and O45. -/

namespace Sys2Proof.Machine

/-- The state with FL replaced and the values `l` put before OUT. -/
def State.withFlOut (s : State) (f : Byte) (l : List Byte) : State := { s with fl := f, out := l ++ s.out }

/-- Emitting appends at the end, so what was put before OUT stays there. -/
theorem withFlOut_emit (s : State) (f : Byte) (l : List Byte) (v : Byte) :
    (s.withFlOut f l).emit v = (s.emit v).withFlOut f l := by
  simp only [State.emit, State.withFlOut, List.append_assoc]

/-- The second run answers what the first does, but for OUT, which differs as before, and FL, which no longer differs if it
did not before. -/
def GoesOnAlike (s : State) (f : Byte) (l : List Byte) (x : Result) (t : State) : Prop :=
  ∃ g, x = .next (t.withFlOut g l) ∧ (f = s.fl → g = t.fl)

section
variable {s t : State} {f : Byte} {l : List Byte}

/-- What keeps FL in both runs goes on alike. -/
theorem GoesOnAlike.of_fl {x : Result} (hx : x = .next (t.withFlOut f l)) (ht : t.fl = s.fl) :
    GoesOnAlike s f l x t := ⟨f, hx, fun hf => hf.trans ht.symm⟩

theorem execAlu_goesOnAlike {op : AluOp} {i : Instr} {ra rb : Byte} (h : execAlu op i ra rb s = .next t) :
    GoesOnAlike s f l (execAlu op i ra rb (s.withFlOut f l)) t := by
  rcases execAlu_cases h with ⟨a, b, ha, hb, ⟨v, hv, rfl⟩ | ⟨fl, hv, rfl⟩ | ⟨k, hv, rfl⟩⟩ | ⟨hr, rfl⟩
  · exact .of_fl (execAlu_result ha hb hv) rfl
  · exact ⟨fl, execAlu_flags ha hb hv, fun _ => rfl⟩
  · exact .of_fl (execAlu_fails ha hb hv) rfl
  · exact .of_fl (execAlu_invalid hr) rfl

theorem branchIf_goesOnAlike {c : Bool} {i : Instr} {r : Byte} (h : branchIf c i r s = .next t) :
    GoesOnAlike s f l (branchIf c i r (s.withFlOut f l)) t := by
  rcases branchIf_cases h with ⟨d, hc, hd, rfl⟩ | ⟨hc, rfl⟩ | ⟨hc, hr, rfl⟩
  · exact .of_fl (branchIf_valid hc hd) rfl
  · exact .of_fl (branchIf_skipped hc) rfl
  · exact .of_fl (branchIf_invalid hc hr) rfl

theorem exec_goesOnAlike {i : Instr} (hbit : (∃ r, i = .jeq r ∨ i = .jne r) → f.getLsbD 0 = s.fl.getLsbD 0)
    (h : exec i s = .next t) : GoesOnAlike s f l (exec i (s.withFlOut f l)) t := by
  cases i with
  | hlt =>
    obtain rfl := next_inj h
    exact .of_fl (exec_hlt _) rfl
  | ldi r imm =>
    rcases execLdi_cases h with ⟨d, hd, rfl⟩ | ⟨hr, rfl⟩
    · exact .of_fl (exec_ldi_valid imm _ hd) rfl
    · exact .of_fl (exec_ldi_invalid imm _ hr) rfl
  | prn r =>
    rcases execPrn_cases h with ⟨d, hd, rfl⟩ | ⟨hr, rfl⟩
    · have hrun : exec (.prn r) (s.withFlOut f l) = .next (((s.withFlOut f l).emit (s.reg d)).advance (.prn r)) :=
        exec_prn_valid _ hd
      rw [withFlOut_emit] at hrun
      exact .of_fl hrun rfl
    · exact .of_fl (exec_prn_invalid _ hr) rfl
  | add ra rb =>
    rw [exec_add] at h ⊢
    exact execAlu_goesOnAlike h
  | mul ra rb =>
    rw [exec_mul] at h ⊢
    exact execAlu_goesOnAlike h
  | div ra rb =>
    rw [exec_div] at h ⊢
    exact execAlu_goesOnAlike h
  | cmp ra rb =>
    rw [exec_cmp] at h ⊢
    exact execAlu_goesOnAlike h
  | push =>
    rcases execPush_cases h with ⟨d, a, hd, ha, -, rfl⟩ | ⟨hr, h0, rfl⟩ | ⟨hr, rfl⟩
    · exact .of_fl (exec_push_valid hd ha) rfl
    · obtain ⟨d, hd⟩ := exists_regIdx hr
      exact .of_fl (exec_push_zero hd h0) rfl
    · exact .of_fl (exec_push_invalid hr) rfl
  | pop =>
    rcases execPop_cases h with ⟨d, hd, hsp, rfl⟩ | ⟨hr, hsp, rfl⟩ | ⟨hr, rfl⟩
    · exact .of_fl (exec_pop_valid hd hsp) rfl
    · obtain ⟨d, hd⟩ := exists_regIdx hr
      exact .of_fl (exec_pop_top hd hsp) rfl
    · exact .of_fl (exec_pop_invalid hr) rfl
  | call =>
    rcases execCall_cases h with ⟨d, a, hd, ha, -, rfl⟩ | ⟨hr, h0, rfl⟩ | ⟨hr, rfl⟩
    · exact .of_fl (exec_call_valid hd ha) rfl
    · obtain ⟨d, hd⟩ := exists_regIdx hr
      exact .of_fl (exec_call_zero hd h0) rfl
    · exact .of_fl (exec_call_invalid hr) rfl
  | ret =>
    rcases execRet_cases h with ⟨hsp, rfl⟩ | ⟨hsp, rfl⟩
    · exact .of_fl (exec_ret_inside hsp) rfl
    · exact .of_fl (exec_ret_top hsp) rfl
  | jmp =>
    rcases execJmp_cases h with ⟨d, hd, rfl⟩ | ⟨hr, rfl⟩
    · exact .of_fl (exec_jmp_valid _ hd) rfl
    · exact .of_fl (exec_jmp_invalid _ hr) rfl
  | jeq r =>
    rw [exec_jeq, show (s.withFlOut f l).fl.getLsbD 0 = s.fl.getLsbD 0 from hbit ⟨r, .inl rfl⟩]
    exact branchIf_goesOnAlike h
  | jne r =>
    rw [exec_jne, show (s.withFlOut f l).fl.getLsbD 0 = s.fl.getLsbD 0 from hbit ⟨r, .inr rfl⟩]
    exact branchIf_goesOnAlike h

end

/-- Settles O41: the second run with nothing put before OUT. -/
theorem onlyTheEqualBitIsRead : Obligations.OnlyTheEqualBitIsRead := by
  intro i s f hbit
  obtain ⟨t, h⟩ := exec_next i s
  obtain ⟨g, hu, -⟩ := exec_goesOnAlike (l := []) hbit h
  exact ⟨t, t.withFlOut g [], h, hu, rfl⟩

/-- A fetch reads memory and pc alone. -/
theorem fetch_withFlOut (s : State) (f : Byte) (l : List Byte) : fetch (s.withFlOut f l) = fetch s := rfl

/-- Settles O45: the second run with FL as it is; the fetch reads neither, and a fault leaves OUT alone. -/
theorem outputIsNeverRead : Obligations.OutputIsNeverRead := by
  intro s t l h
  change step (s.withFlOut s.fl l) = .next (t.withFlOut t.fl l)
  have hfetch : fetch (s.withFlOut s.fl l) = fetch s := fetch_withFlOut s s.fl l
  obtain ⟨hs, ⟨i, hf, h⟩ | ⟨kind, op, hf, rfl⟩⟩ := step_cases h
  · obtain ⟨g, hu, hg⟩ := exec_goesOnAlike (f := s.fl) (l := l) (fun _ => rfl) h
    rw [step_of_fetch_ok (s := s.withFlOut s.fl l) hs (hfetch.trans hf), hu, hg rfl]
  · exact step_of_fetch_error hs (hfetch.trans hf)

end Sys2Proof.Machine
end
